-- ==== Sys2Proof/Word.lean ====
section
/-! DEFINITION. The words of the request interface (spec/20_memory.md R72, spec/30_encoding.md R90). -/

namespace Sys2Proof

/-- A payload word or a configuration register: 64 bits, bit 0 least significant (R72, R97). -/
abbrev Word := BitVec 64

/-- A request or response header word: 32 bits (R90 to R92). -/
abbrev HeaderWord := BitVec 32

/-- One byte of a word carried by a byte transport (R72). -/
abbrev Byte := BitVec 8

/-- The host's request identifier, header bits 15:8 (R91, R95). -/
abbrev Tag := BitVec 8

/-- The operation field, header bits 3:0 of a request and 7:4 of a response (R91, R92). -/
abbrev OpField := BitVec 4

end Sys2Proof
end

