-- ==== Sys2Proof/Syntax.lean ====
section
/-! DEFINITION. Requests, responses and the three operations of the block
(spec/10_state.md R31, R56 to R59; spec/30_encoding.md R90 to R109). -/

namespace Sys2Proof

/-- SurfaceKind (R57). The 2-bit field value 3 names no kind (R107): an operand is an
`Option SurfaceKind`, and `none` stands for that value. -/
inductive SurfaceKind where
  | linear
  | linearUnswizzled
  | tiled
deriving DecidableEq, Repr, Inhabited

/-- PageSizeClass (R58). The 2-bit field value 3 names no class (R108): `none` of an
`Option PageSizeClass` stands for it. -/
inductive PageSizeClass where
  | small
  | medium
  | large
deriving DecidableEq, Repr, Inhabited

/-- The generation number and the thirteen configuration fields, in the source's order (R31).
Numeric fields are 64-bit words (R31, R97); the two flags are one bit each (R43, R44). It is both
the operand of CONFIGURE (R99) and the configuration register set. -/
structure Configuration where
  /-- R32, word w0. -/
  generation : Word
  /-- R33 (`PC`), word w1. -/
  partitionCount : Word
  /-- R34, word w2. -/
  xbarSliceCount : Word
  /-- R35, word w3. -/
  l2SetCount : Word
  /-- R36 (`s`), word w4. -/
  l2SetBits : Word
  /-- R37 (`NB`), word w5. -/
  dramBankCount : Word
  /-- R38, word w6. -/
  extBankBits : Word
  /-- R39 (`PAGE`), word w7. -/
  dramPageSizeBytes : Word
  /-- R40, word w8: stored and never read by any rule. -/
  burstSizeBytes : Word
  /-- R41, word w9: stored and never read by any rule. -/
  beatSizeBytes : Word
  /-- R42 (`PIB`), word w10. -/
  partitionInterleaveBytes : Word
  /-- R43, bit 0 of word w11. -/
  bankSwizzleEnabled : Bool
  /-- R44, bit 0 of word w12. -/
  eccEnabled : Bool
  /-- R45 (`GRAN`), word w13. -/
  columnGranuleSizeBytes : Word
deriving DecidableEq, Repr, Inhabited

/-- PhysicalLocation: twelve 64-bit words in the source's order (R59, R101 words w0 to w11). -/
structure PhysicalLocation where
  partitionId : Word
  subPartitionId : Word
  rankId : Word
  bankId : Word
  rowId : Word
  columnId : Word
  sliceId : Word
  l2Set : Word
  l2Tag : Word
  l2Sector : Word
  l2BankId : Word
  xbarRawAddress : Word
deriving DecidableEq, Repr, Inhabited

/-- The operations of the block, one constructor per row of spec/opcode_table.json (R93). `tag` and
`trace` are header bits 15:8 and 4 (R91). CONFIGURE has the `trace` bit too, because R131 gives a
CONFIGURE with `trace = 1` its answer (IllegalRequest). -/
inductive Instr where
  /-- CONFIGURE (R99, R130, R131). -/
  | configure (tag : Tag) (trace : Bool) (c : Configuration)
  /-- DECODE (R100, R170, R172). -/
  | decode (tag : Tag) (trace : Bool) (byteOffset : Word)
      (kind : Option SurfaceKind) (page : Option PageSizeClass)
  /-- ENCODE (R101, R300, R304). -/
  | encode (tag : Tag) (trace : Bool) (loc : PhysicalLocation)
      (kind : Option SurfaceKind) (page : Option PageSizeClass) (eccOn : Bool)
deriving DecidableEq, Repr, Inhabited

/-- A request as sent: one header word and the payload words that came with it (R90). -/
structure Request where
  header : HeaderWord
  payload : List Word
deriving DecidableEq, Repr, Inhabited

/-- Why a request has no legal form (R110, R336). Every one of these is answered with
IllegalRequest; the reason itself is not part of the response. -/
inductive IllegalForm where
  /-- `op` is 0x0 or 0x4 to 0xF (R93, R111). -/
  | reservedOp
  /-- A header bit of 7:5 or 31:16 is set (R96). -/
  | reservedHeaderBit
  /-- `trace = 1` on CONFIGURE (R94). -/
  | traceOnConfigure
  /-- A payload length other than R98's. -/
  | payloadLength
  /-- A reserved payload bit is set (R97, R99 to R101). -/
  | reservedPayloadBit
deriving DecidableEq, Repr

/-- The outcome of a request, the `status` field of its response (R109). -/
inductive Status where
  | ok
  /-- R331. -/
  | configUnsupported
  /-- R332. -/
  | invalidSurfaceKind
  /-- R333. -/
  | invalidPageSize
  /-- R334. -/
  | inconsistentEccState
  /-- R335. -/
  | invalidLocation
  /-- R336. -/
  | illegalRequest
deriving DecidableEq, Repr

/-- A response: the three header fields of R92 and the payload words (R90, R102 to R106). -/
structure Response where
  status : Status
  op : OpField
  tag : Tag
  payload : List Word
deriving DecidableEq, Repr

end Sys2Proof
end

