-- ==== Sys2Proof/WellFormed.lean ====
section
/-! DEFINITION. Which terms of `Instr` are the contents of a legal request (spec/30_encoding.md
R110). Every operand type but CONFIGURE's `trace` bit admits exactly the legal values of its field. -/

namespace Sys2Proof

/-- CONFIGURE requires `trace = 0` (R94, R110); DECODE and ENCODE take either value. -/
def Instr.wellFormed : Instr → Bool
  | .configure _ trace _ => !trace
  | .decode _ _ _ _ _ => true
  | .encode _ _ _ _ _ _ => true

end Sys2Proof
end

