-- ==== Sys2Proof/Decode.lean ====
section
/-! DEFINITION. Reading a request (spec/30_encoding.md R91 to R101, R107 to R112), the byte order of
a byte transport (spec/20_memory.md R72), and the encoder. -/

namespace Sys2Proof

/-! ## Header fields (R91) -/

/-- Header bits 3:0. -/
def opOf (h : HeaderWord) : OpField := h.extractLsb' 0 4

/-- Header bit 4. -/
def traceOf (h : HeaderWord) : Bool := h.getLsbD 4

/-- Header bits 15:8. -/
def tagOf (h : HeaderWord) : Tag := h.extractLsb' 8 8

/-- Bits 7:5 and 31:16 are reserved and must be 0 (R91, R96). -/
def reservedHeaderClear (h : HeaderWord) : Bool :=
  h.extractLsb' 5 3 == 0#3 && h.extractLsb' 16 16 == 0#16

/-- The `op` of CONFIGURE (R93). -/
def opConfigure : OpField := 0x1#4

/-- The `op` of DECODE (R93). -/
def opDecode : OpField := 0x2#4

/-- The `op` of ENCODE (R93). -/
def opEncode : OpField := 0x3#4

/-- The number of payload words of an operation (R98, R112); a reserved `op` has none. -/
def payloadWords (op : OpField) : Option Nat :=
  if op = opConfigure then some 14
  else if op = opDecode then some 2
  else if op = opEncode then some 13
  else none

/-! ## Payload fields (R97 to R101) -/

/-- `surfaceKind`, a 2-bit field (R107); `none` is the value 3. -/
def kindOfField (f : BitVec 2) : Option SurfaceKind :=
  if f = 0#2 then some .linear
  else if f = 1#2 then some .linearUnswizzled
  else if f = 2#2 then some .tiled
  else none

/-- `pageSizeClass`, a 2-bit field (R108); `none` is the value 3. -/
def pageOfField (f : BitVec 2) : Option PageSizeClass :=
  if f = 0#2 then some .small
  else if f = 1#2 then some .medium
  else if f = 2#2 then some .large
  else none

/-- The `surfaceKind` of a mode word, bits 1:0 (R100, R101). -/
def modeKind (w : Word) : Option SurfaceKind := kindOfField (w.extractLsb' 0 2)

/-- The `pageSizeClass` of a mode word, bits 3:2 (R100, R101). -/
def modePage (w : Word) : Option PageSizeClass := pageOfField (w.extractLsb' 2 2)

/-- Bits `63 : n` of a word are 0. -/
def clearAbove (n : Nat) (w : Word) : Bool := w >>> n == 0#64

/-! ## The decoder -/

/-- The fourteen words of R99; the reserved bits of w11 and w12 are R97's. -/
def decodeConfigure (tag : Tag) (trace : Bool) (payload : List Word) : Except IllegalForm Instr :=
  if trace then .error .traceOnConfigure
  else
    match payload with
    | [w0, w1, w2, w3, w4, w5, w6, w7, w8, w9, w10, w11, w12, w13] =>
      if clearAbove 1 w11 && clearAbove 1 w12 then
        .ok (.configure tag trace
          { generation := w0, partitionCount := w1, xbarSliceCount := w2, l2SetCount := w3,
            l2SetBits := w4, dramBankCount := w5, extBankBits := w6, dramPageSizeBytes := w7,
            burstSizeBytes := w8, beatSizeBytes := w9, partitionInterleaveBytes := w10,
            bankSwizzleEnabled := w11.getLsbD 0, eccEnabled := w12.getLsbD 0,
            columnGranuleSizeBytes := w13 })
      else .error .reservedPayloadBit
    | _ => .error .payloadLength

/-- The two words of R100. -/
def decodeDecode (tag : Tag) (trace : Bool) (payload : List Word) : Except IllegalForm Instr :=
  match payload with
  | [w0, w1] =>
    if clearAbove 4 w1 then .ok (.decode tag trace w0 (modeKind w1) (modePage w1))
    else .error .reservedPayloadBit
  | _ => .error .payloadLength

/-- The thirteen words of R101. -/
def decodeEncode (tag : Tag) (trace : Bool) (payload : List Word) : Except IllegalForm Instr :=
  match payload with
  | [w0, w1, w2, w3, w4, w5, w6, w7, w8, w9, w10, w11, w12] =>
    if clearAbove 5 w12 then
      .ok (.encode tag trace
        { partitionId := w0, subPartitionId := w1, rankId := w2, bankId := w3, rowId := w4,
          columnId := w5, sliceId := w6, l2Set := w7, l2Tag := w8, l2Sector := w9,
          l2BankId := w10, xbarRawAddress := w11 }
        (modeKind w12) (modePage w12) (w12.getLsbD 4))
    else .error .reservedPayloadBit
  | _ => .error .payloadLength

/-- Reads a request: its operation with the operands, or the name of what makes its form illegal
(R110). -/
def decodeRequest (r : Request) : Except IllegalForm Instr :=
  if !reservedHeaderClear r.header then .error .reservedHeaderBit
  else if opOf r.header = opConfigure then
    decodeConfigure (tagOf r.header) (traceOf r.header) r.payload
  else if opOf r.header = opDecode then
    decodeDecode (tagOf r.header) (traceOf r.header) r.payload
  else if opOf r.header = opEncode then
    decodeEncode (tagOf r.header) (traceOf r.header) r.payload
  else .error .reservedOp

/-! ## Words as bytes (R72): byte `k` of a word holds its bits `8k+7 .. 8k` -/

/-- The first `n` bytes of a value, least significant first. -/
def littleEndian (n v : Nat) : List Byte :=
  (List.range n).map fun k => BitVec.ofNat 8 (v >>> (8 * k))

/-- The value of a list of bytes, least significant first. -/
def ofLittleEndian : List Byte → Nat
  | [] => 0
  | b :: bs => b.toNat + 256 * ofLittleEndian bs

/-- A request as a byte transport carries it: four header bytes, then eight for each word. -/
def requestBytes (r : Request) : List Byte :=
  littleEndian 4 r.header.toNat ++ r.payload.flatMap fun w => littleEndian 8 w.toNat

/-- The 64-bit words of a run of bytes; none when they are not whole words. -/
def wordsOfBytes : List Byte → Option (List Word)
  | [] => some []
  | b0 :: b1 :: b2 :: b3 :: b4 :: b5 :: b6 :: b7 :: rest =>
    (wordsOfBytes rest).map
      (BitVec.ofNat 64 (ofLittleEndian [b0, b1, b2, b3, b4, b5, b6, b7]) :: ·)
  | _ => none

/-- The request that a run of bytes carries; none when it is not a header and whole words. -/
def requestOfBytes : List Byte → Option Request
  | b0 :: b1 :: b2 :: b3 :: rest =>
    (wordsOfBytes rest).map (⟨BitVec.ofNat 32 (ofLittleEndian [b0, b1, b2, b3]), ·⟩)
  | _ => none

/-- The decoder on bytes: total, and none for every run of bytes that is no legal request. -/
def decodeBytes (bytes : List Byte) : Option Instr :=
  match requestOfBytes bytes with
  | none => none
  | some r => (decodeRequest r).toOption

/-! ## A row of the opcode table as one number -/

/-- The request whose bits are `w`, header first: bit 0 of `w` is bit 0 of the header, bit `32 + 64i`
is bit 0 of payload word `i`, and every bit at or above `nbits` is 0. The number of payload words is
what R98 gives the header's `op`. -/
def requestOfTableWord (nbits w : Nat) : Request :=
  let v := w % 2 ^ nbits
  let header : HeaderWord := BitVec.ofNat 32 v
  let n := (payloadWords (opOf header)).getD 0
  ⟨header, (List.range n).map fun i => BitVec.ofNat 64 (v >>> (32 + 64 * i))⟩

/-- What the decoder reads from the bytes of that request, each word little-endian (R72). -/
def decodeTableWord (nbits w : Nat) : Option Instr :=
  decodeBytes (requestBytes (requestOfTableWord nbits w))

/-! ## The encoder -/

/-- R107. -/
def fieldOfKind : Option SurfaceKind → BitVec 2
  | some .linear => 0#2
  | some .linearUnswizzled => 1#2
  | some .tiled => 2#2
  | none => 3#2

/-- R108. -/
def fieldOfPage : Option PageSizeClass → BitVec 2
  | some .small => 0#2
  | some .medium => 1#2
  | some .large => 2#2
  | none => 3#2

/-- The `op` field of an operation (R93). -/
def opcodeOf : Instr → OpField
  | .configure _ _ _ => opConfigure
  | .decode _ _ _ _ _ => opDecode
  | .encode _ _ _ _ _ _ => opEncode

/-- The `tag` field of an operation (R95). -/
def tagOfInstr : Instr → Tag
  | .configure tag _ _ => tag
  | .decode tag _ _ _ _ => tag
  | .encode tag _ _ _ _ _ => tag

/-- The request header of R91 with its reserved bits 0. -/
def requestHeader (op : OpField) (trace : Bool) (tag : Tag) : HeaderWord :=
  0#16 ++ (tag ++ (0#3 ++ (BitVec.ofBool trace ++ op)))

/-- A flag in bit 0 of a word (R97). -/
def flagWord (b : Bool) : Word := 0#63 ++ BitVec.ofBool b

/-- The mode word of DECODE (R100) and of an ENCODE response (R103). -/
def modeWord (kind : Option SurfaceKind) (page : Option PageSizeClass) : Word :=
  0#60 ++ (fieldOfPage page ++ fieldOfKind kind)

/-- The mode word w12 of ENCODE (R101). -/
def encodeModeWord (kind : Option SurfaceKind) (page : Option PageSizeClass) (eccOn : Bool) : Word :=
  0#59 ++ (BitVec.ofBool eccOn ++ (fieldOfPage page ++ fieldOfKind kind))

/-- The words of R99, in order. -/
def configurationWords (c : Configuration) : List Word :=
  [c.generation, c.partitionCount, c.xbarSliceCount, c.l2SetCount, c.l2SetBits, c.dramBankCount,
   c.extBankBits, c.dramPageSizeBytes, c.burstSizeBytes, c.beatSizeBytes,
   c.partitionInterleaveBytes, flagWord c.bankSwizzleEnabled, flagWord c.eccEnabled,
   c.columnGranuleSizeBytes]

/-- The words w0 to w11 of R101, in order. -/
def locationWords (l : PhysicalLocation) : List Word :=
  [l.partitionId, l.subPartitionId, l.rankId, l.bankId, l.rowId, l.columnId, l.sliceId, l.l2Set,
   l.l2Tag, l.l2Sector, l.l2BankId, l.xbarRawAddress]

/-- The words of an operation (R90, R91, R99 to R101). -/
def encodeRequest : Instr → Request
  | .configure tag trace c => ⟨requestHeader opConfigure trace tag, configurationWords c⟩
  | .decode tag trace a kind page => ⟨requestHeader opDecode trace tag, [a, modeWord kind page]⟩
  | .encode tag trace loc kind page eccOn =>
    ⟨requestHeader opEncode trace tag, locationWords loc ++ [encodeModeWord kind page eccOn]⟩

end Sys2Proof
end

