-- ==== Sys2Proof/Machine/State.lean ====
section
/-! DEFINITION. The state of the block (spec/10_state.md R31, R46, R49, R51), its two channels
(spec/60_exceptions.md R345) and the state after reset (R55, spec/70_reset_and_hazards.md R370). -/

namespace Sys2Proof.Machine

/-- The engine state: `eng.valid` and the configuration registers (R31, R46). `eng.gen` is
`cfg.generation`, and `eng.policy` is a function of `cfg` that every use resolves again (R49). -/
structure Engine where
  /-- `eng.valid`. -/
  valid : Bool
  /-- `cfg`, the fourteen registers. -/
  cfg : Configuration
deriving DecidableEq, Repr, Inhabited

/-- A request the block has taken: an operation, or a request of illegal form, of which only the
`op` and `tag` fields are kept, since the response copies them (R336). -/
inductive Accepted where
  | operation (i : Instr)
  | illegal (op : OpField) (tag : Tag) (why : IllegalForm)
deriving DecidableEq, Repr

/-- An entry of `outstanding`: an accepted request, the engine state it is bound to (R374: DECODE
and ENCODE; an illegal request binds nothing), and the response that awaits delivery. -/
structure Entry where
  what : Accepted
  bound : Option Engine
  response : Response
deriving DecidableEq, Repr

/-- What the request side of the block's interface brings next: a request the host has sent on the
request channel, or the platform's reset event (R370, R380). -/
inductive Input where
  | request (r : Request)
  | reset
deriving DecidableEq, Repr

/-- The block with its two channels. -/
structure State where
  /-- `eng.valid` and `cfg` (R31, R46). -/
  eng : Engine
  /-- `outstanding`, in the order of acceptance (R51). -/
  outstanding : List Entry
  /-- The request channel: what has been sent and not yet taken, oldest first (R374, R379). -/
  inputs : List Input
  /-- The response channel: every response delivered so far, oldest first (R376, R381). -/
  responses : List Response
  /-- The model's own counter, the argument of its free values. -/
  tick : Nat
deriving DecidableEq, Repr

/-- Why a step could stop with a fault. There is none: every error of the block is the status of a
response, and it has no trap (R330, R339). -/
inductive Fault where
deriving DecidableEq, Repr

/-- Why the model could give an operation no meaning. -/
inductive Refusal where
  /-- Raised by an arm of `exec` that has no meaning yet (safe: the model stops where the hardware
  goes on). No arm of this model raises it. -/
  | notModelled (mnemonic : String)
deriving DecidableEq, Repr

/-- The engine after reset (R55): not valid. The registers are unspecified there; the model's value
for each is zero (DESIGN CHOICE, unsafe: log entry 1). -/
def Engine.afterReset : Engine where
  valid := false
  cfg :=
    { generation := 0, partitionCount := 0, xbarSliceCount := 0, l2SetCount := 0, l2SetBits := 0,
      dramBankCount := 0, extBankBits := 0, dramPageSizeBytes := 0, burstSizeBytes := 0,
      beatSizeBytes := 0, partitionInterleaveBytes := 0, bankSwizzleEnabled := false,
      eccEnabled := false, columnGranuleSizeBytes := 0 }

/-- The block right after power-on: R370's state, and channels that have carried nothing. -/
def State.reset : State where
  eng := Engine.afterReset
  outstanding := []
  inputs := []
  responses := []
  tick := 0

end Sys2Proof.Machine
end

