-- ==== Sys2Proof/Machine/Flags.lean ====
section
/-! DEFINITION. Statuses and response words. The block has no status flag or condition code
(spec/10_state.md R48): the outcome of a request is the status of its response
(spec/30_encoding.md R92, R109). -/

namespace Sys2Proof.Machine

/-- The `status` field values (R109). -/
def statusCode : Status → BitVec 4
  | .ok => 0
  | .configUnsupported => 1
  | .invalidSurfaceKind => 2
  | .invalidPageSize => 3
  | .inconsistentEccState => 4
  | .invalidLocation => 5
  | .illegalRequest => 6

/-- The response header (R92): status in bits 3:0, op in 7:4, tag in 15:8, and 31:16 zero. -/
def responseHeader (r : Response) : HeaderWord := 0#16 ++ (r.tag ++ (r.op ++ statusCode r.status))

/-- A response as a byte transport carries it, each word least significant byte first (R72, R90). -/
def responseBytes (r : Response) : List Byte :=
  littleEndian 4 (responseHeader r).toNat ++ r.payload.flatMap fun w => littleEndian 8 w.toNat

end Sys2Proof.Machine
end

