-- ==== Sys2Proof/Config.lean ====
section
/-! DEFINITION. The implementation parameters the spec leaves open (spec/00_scope.md R11,
spec/40_generation_policy_mux.md R133) and the free values of the model. The source fixes none of
them, so the machine runs on opaque constants; the stage operations take a `Params` as an argument,
as R11 asks. -/

namespace Sys2Proof

/-- The key `k(cfg)` of the policy slots: `(partitionCount, xbarSliceCount, l2SetCount,
dramBankCount)` (R133). -/
structure PolicyKey where
  partitionCount : Nat
  xbarSliceCount : Nat
  l2SetCount : Nat
  dramBankCount : Nat
deriving DecidableEq, Repr, Inhabited

/-- How the cache fold is combined with the low quotient bits (R133, R241, R242). -/
inductive Combine where
  | xor
  | addMod
deriving DecidableEq, Repr, Inhabited

/-- A bank hash entry (R133, R269, R270). -/
inductive BankHash where
  /-- `FixedTerm(f)`. -/
  | fixedTerm (f : Nat → Nat)
  /-- `TableFold(baseShift, T)`. -/
  | tableFold (baseShift : Nat) (table : List Nat)
deriving Inhabited

/-- A kind-swizzle entry: a pair `(H, Hinv)` of functions on `[0, 2^64)` (R133). -/
structure KsEntry where
  hash : Word → Word
  hashInv : Word → Word
deriving Inhabited

/-- The slots of one generation's bundle. Each is a partial map: `none` is "no entry" (R133). -/
structure PolicyTable where
  /-- `SUPPORTED_g`, over the whole configuration; not inherited (R134, R135). -/
  supported : Configuration → Bool
  /-- `ksHash_g`, keyed by `(partitionCount, pageSizeClass, surfaceKind)`. -/
  ksHash : Nat → PageSizeClass → SurfaceKind → Option KsEntry
  /-- `partCorr_g`: a function of the quotient. -/
  partCorr : PolicyKey → Option (Nat → Nat)
  /-- `sliceOf_g`: a function of `(quotient, offset)`. -/
  sliceOf : PolicyKey → Option (Nat → Nat → Nat)
  /-- `l2Fold_g`: a function of `l2Tag`. -/
  l2Fold : PolicyKey → Option (Nat → Nat)
  /-- `l2Combine_g`. -/
  l2Combine : PolicyKey → Option Combine
  /-- `bankHash_g`. -/
  bankHash : PolicyKey → Option BankHash
  /-- `subPartOf_g`: a function of `(bankAddress, offset)`. -/
  subPartOf : PolicyKey → Option (Nat → Nat → Nat)
deriving Inhabited

/-- The global parameters of R11. The fields named by a law are the types of R11's table and the law
it gives `GEN_PARENT` (a finite, acyclic chain of generations, none above generation 0). The laws
R135 to R143 are no part of the type: they are hypotheses of the theorems that need them (D52). -/
structure Params where
  /-- `NUM_GENERATIONS`. -/
  numGenerations : Nat := 1
  numGenerations_pos : 1 ≤ numGenerations := by decide
  /-- `GEN_PARENT`. -/
  genParent : Nat → Option Nat := fun _ => none
  genParent_lt : ∀ g p, genParent g = some p → p < numGenerations := by simp
  genParent_zero : genParent 0 = none := by rfl
  genParent_acyclic : ∃ rank : Nat → Nat, ∀ g p, genParent g = some p → rank p < rank g := by simp
  /-- `POLICY`: the table of each generation. -/
  policy : Nat → PolicyTable
  /-- `TILE_FIELD_LSB`. -/
  tileFieldLsb : Nat := 0
  tileFieldLsb_le : tileFieldLsb ≤ 59 := by decide
  /-- `KIND_TILE_TABLE`. -/
  kindTileTable : Fin 32 → Fin 32
  /-- `KIND_TILE_TABLE_INV`. -/
  kindTileTableInv : Fin 32 → Fin 32
  /-- `L2_SECTOR_BYTES`. -/
  l2SectorBytes : Nat := 1
  l2SectorBytes_pow2 : ∃ k, l2SectorBytes = 2 ^ k := by exact ⟨0, rfl⟩
  /-- `L2_SECTORS_PER_LINE`. -/
  l2SectorsPerLine : Nat := 1
  l2SectorsPerLine_pos : 1 ≤ l2SectorsPerLine := by decide
  /-- `BANK_ROT_WIDTH`. -/
  bankRotWidth : Nat := 0
  bankRotWidth_le : bankRotWidth ≤ 63 := by decide
  /-- `BANK_ROT_AMOUNT`. -/
  bankRotAmount : Nat
  /-- `BANK_PERM` for a bank count and a number of rank bits: `tmp` to `(bank0, rank0)`. -/
  bankPerm : (dramBankCount extBankBits tmp : Nat) → Nat × Nat
  /-- `BANK_PERM_INV` for a bank count and a number of rank bits. -/
  bankPermInv : (dramBankCount extBankBits bank0 rank0 : Nat) → Nat
  /-- `SUBPARTITION_COUNT`. -/
  subpartitionCount : Nat := 1
  subpartitionCount_pos : 1 ≤ subpartitionCount := by decide
  /-- `MAX_OUTSTANDING`. -/
  maxOutstanding : Nat := 1
  maxOutstanding_pos : 1 ≤ maxOutstanding := by decide
  /-- `ECC_COMPACT`. -/
  eccCompact : Nat → Nat
  /-- `ECC_EXPAND`. -/
  eccExpand : Nat → Nat
deriving Inhabited

/-- The parameters of the machine that `exec` and `step` run: nothing is known of them but their
type (R7, R11). -/
opaque Config.params : Params

/-- `WE_SWIZZLE`, the undefined `swizzle` of the source's worked example (R248, D49). Only the law
`WorkedExampleLaw` of Safety.lean speaks of such a function; the block checks nothing. -/
opaque Config.weSwizzle : Fin 4 → Fin 4 → Nat

/-- Free value: which of the actions open to the block comes next (R80, R376, R378). Applied to
`State.tick`. -/
opaque Config.schedule : Nat → Nat

/-- Free value: the configuration registers after a CONFIGURE that answers ConfigUnsupported (R145,
spec/93_implementation_defined.md item 3). Applied to `State.tick`. -/
opaque Config.unspecifiedCfg : Nat → Configuration

/-- Free value: the 64-bit word that carries a natural of `2^64` or more. R16 gives `zext` only below
`2^64`; R174 shows that lawful parameters never need it. -/
opaque Config.oversizeWord : Nat → Word

end Sys2Proof
end

