-- ==== Sys2Proof/Machine/Operands.lean ====
section
/-! DEFINITION. The operators and short names of spec/00_scope.md R14, R15 and R18, and the values
one DECODE or ENCODE computes (R17, R30). -/

namespace Sys2Proof.Machine

/-! ## Operators on naturals (R14, R15). `>>>`, `<<<`, `&&&`, `|||` and `^^^` are R15's own. -/

/-- `v[hi:lo] = (v >> lo) mod 2^(hi-lo+1)` (R14). -/
def bitField (v hi lo : Nat) : Nat := (v >>> lo) % 2 ^ (hi - lo + 1)

/-- `a & ~m`: the bits of `a` that `m` does not set (R15). -/
def andNot (a m : Nat) : Nat := a ^^^ (a &&& m)

/-- `insert(v, lo, w, f) = (v & ~((2^w − 1) << lo)) | (f << lo)` (R15). -/
def insertField (v lo w f : Nat) : Nat := andNot v ((2 ^ w - 1) <<< lo) ||| (f <<< lo)

/-- `isPow2(n)`: `n ≥ 1` and exactly one bit of `n` is set (R15). -/
def isPow2 (n : Nat) : Bool := n != 0 && (n &&& (n - 1)) == 0

/-! ## Short names of the configuration registers (R18, spec/46_dram_coordinate_mapper.md) -/

/-- `PC`. -/
def cfgPC (c : Configuration) : Nat := c.partitionCount.toNat

/-- `PIB`. -/
def cfgPIB (c : Configuration) : Nat := c.partitionInterleaveBytes.toNat

/-- `s`. -/
def cfgS (c : Configuration) : Nat := c.l2SetBits.toNat

/-- `NB`. -/
def cfgNB (c : Configuration) : Nat := c.dramBankCount.toNat

/-- `extBankBits` as a number. -/
def cfgExt (c : Configuration) : Nat := c.extBankBits.toNat

/-- `G = NB << extBankBits`. -/
def cfgG (c : Configuration) : Nat := cfgNB c <<< cfgExt c

/-- `PAGE`. -/
def cfgPAGE (c : Configuration) : Nat := c.dramPageSizeBytes.toNat

/-- `GRAN`. -/
def cfgGRAN (c : Configuration) : Nat := c.columnGranuleSizeBytes.toNat

/-- `pageMask = GRAN − 1` (R18, R312). -/
def pageMask (c : Configuration) : Nat := cfgGRAN c - 1

/-- The page size of a class, 4 KiB, 64 KiB or 128 KiB (R58). No rule of the block uses it. -/
def pageClassBytes : PageSizeClass → Nat
  | .small => 4 * 1024
  | .medium => 64 * 1024
  | .large => 128 * 1024

/-- `zext_64` (R16): the word that carries a natural below `2^64`. A larger natural, which only a
parameter set that breaks its laws can produce (R174), is carried by a free value. -/
def zext64 (v : Nat) : Word := if v < 2 ^ 64 then BitVec.ofNat 64 v else Config.oversizeWord v

/-! ## The values of one request -/

/-- The twelve PhysicalLocation values of a DECODE, before they are placed in words (R59). -/
structure Coordinates where
  partitionId : Nat
  subPartitionId : Nat
  rankId : Nat
  bankId : Nat
  rowId : Nat
  columnId : Nat
  sliceId : Nat
  l2Set : Nat
  l2Tag : Nat
  l2Sector : Nat
  l2BankId : Nat
  xbarRawAddress : Nat
deriving DecidableEq, Repr

/-- The twelve trace values t0 to t11 (R105). -/
structure TraceValues where
  rawAddress : Nat
  kindSwizzledAddress : Nat
  offset : Nat
  quotient : Nat
  remainder : Nat
  l2Offset : Nat
  xbarRawAddress : Nat
  eccAddress : Nat
  bankAddress : Nat
  rawBankGroup : Nat
  tmp : Nat
  bankHash : Nat
deriving DecidableEq, Repr

/-- What the pipeline of a DECODE computes (R172). -/
structure Decoded where
  loc : Coordinates
  trace : TraceValues
deriving DecidableEq, Repr

/-- What the pipeline of an ENCODE computes (R304). -/
structure Encoded where
  byteOffset : Word
  trace : TraceValues
deriving DecidableEq, Repr

/-- The stage functions of one engine, resolved (R49, R134). -/
structure Policy where
  partCorr : Nat → Nat
  sliceOf : Nat → Nat → Nat
  l2Fold : Nat → Nat
  l2Combine : Combine
  bankHash : BankHash
  subPartOf : Nat → Nat → Nat

/-- The word of `xbarRawAddress = (l2Tag << s) | l2Set`: the words of the two parts, combined as R176
requires of every response, also where a cache fold that breaks law R139 makes `l2Set` too large for
its word (R247). Where the value is below `2^64` this is its `zext64` (`xbarWord_of_lt`). -/
def xbarWord (s l2Tag l2Set : Nat) : Word := (zext64 l2Tag <<< s) ||| zext64 l2Set

/-- The location as the words it is reported in, for a set of `s` bits (R59, R102, R176). -/
def coordinatesLocation (s : Nat) (l : Coordinates) : PhysicalLocation where
  partitionId := zext64 l.partitionId
  subPartitionId := zext64 l.subPartitionId
  rankId := zext64 l.rankId
  bankId := zext64 l.bankId
  rowId := zext64 l.rowId
  columnId := zext64 l.columnId
  sliceId := zext64 l.sliceId
  l2Set := zext64 l.l2Set
  l2Tag := zext64 l.l2Tag
  l2Sector := zext64 l.l2Sector
  l2BankId := zext64 l.l2BankId
  xbarRawAddress := xbarWord s l.l2Tag l.l2Set

/-- The trace words t0 to t11, in order (R105); `xbar` is the word of `xbarRawAddress`. -/
def traceWords (xbar : Word) (t : TraceValues) : List Word :=
  [zext64 t.rawAddress, zext64 t.kindSwizzledAddress, zext64 t.offset, zext64 t.quotient,
   zext64 t.remainder, zext64 t.l2Offset, xbar, zext64 t.eccAddress,
   zext64 t.bankAddress, zext64 t.rawBankGroup, zext64 t.tmp, zext64 t.bankHash]

end Sys2Proof.Machine
end

