-- ==== Sys2Proof/Machine/Ops.lean ====
section
/-! DEFINITION. The operations over the state that every request shares: answering and raising
(spec/00_scope.md R16, spec/60_exceptions.md R330, R336, R339), acceptance, delivery, the reset
event, and the choice of what comes next (spec/70_reset_and_hazards.md R370 to R379). -/

namespace Sys2Proof.Machine

/-! ## Answers. The block has no trap to take or return from (R339, R340): raising an error is
answering with its status and nothing else. -/

/-- The status and payload of an answer. -/
structure Reply where
  status : Status
  payload : List Word
deriving DecidableEq, Repr

/-- `respond(status, words)` (R16). -/
def respond (status : Status) (words : List Word) : Reply := ⟨status, words⟩

/-- `raise E`: `respond(E, [])` (R16, R106). -/
def raise (status : Status) : Reply := respond status []

/-- The `op` field that the response copies (R92). -/
def acceptedOp : Accepted → OpField
  | .operation i => opcodeOf i
  | .illegal op _ _ => op

/-- The `tag` field that the response copies (R92, R95). -/
def acceptedTag : Accepted → Tag
  | .operation i => tagOfInstr i
  | .illegal _ tag _ => tag

/-- The response that answers an accepted request (R92, R106). -/
def responseTo (what : Accepted) (reply : Reply) : Response :=
  ⟨reply.status, acceptedOp what, acceptedTag what, reply.payload⟩

/-! ## Acceptance and delivery -/

/-- Puts an accepted request with its answer into `outstanding` (R51, R374). -/
def accept (what : Accepted) (bound : Option Engine) (reply : Reply) (s : State) : State :=
  { s with outstanding := s.outstanding ++ [⟨what, bound, responseTo what reply⟩] }

/-- A request of illegal form: decided at acceptance, binds nothing and changes no other state
(R110, R336, R374). -/
def acceptIllegal (r : Request) (why : IllegalForm) (s : State) : State :=
  accept (.illegal (opOf r.header) (tagOf r.header) why) none (raise .illegalRequest) s

/-- The request channel moves on: what has been taken leaves it. -/
def fetched (s : State) (rest : List Input) : State :=
  { s with inputs := rest, tick := s.tick + 1 }

/-- Delivers the response of the `k`-th outstanding request, which leaves `outstanding` (R76, R376). -/
def answer (k : Nat) (s : State) : State :=
  match s.outstanding[k]? with
  | none => s
  | some e =>
    { s with outstanding := s.outstanding.eraseIdx k, responses := s.responses ++ [e.response],
             tick := s.tick + 1 }

/-- The reset event (R370, R371): the engine is as after power-on and every accepted, unanswered
request is discarded. Responses delivered before it stay with the host. -/
def platformReset (s : State) (rest : List Input) : State :=
  { s with eng := Engine.afterReset, outstanding := [], inputs := rest, tick := s.tick + 1 }

/-! ## What comes next -/

/-- What a step does. -/
inductive Event where
  /-- Nothing is sent and nothing is outstanding: an idle block keeps its state (R347). -/
  | idle
  /-- Deliver the response of outstanding request `k`. -/
  | answer (k : Nat)
  /-- The platform's reset. -/
  | reset (rest : List Input)
  /-- Take a request from the channel. -/
  | accept (r : Request) (rest : List Input)
deriving DecidableEq, Repr

/-- The event that takes the oldest input. -/
def takeInput : Input → List Input → Event
  | .request r, rest => .accept r rest
  | .reset, rest => .reset rest

/-- The block takes no request while `outstanding` holds `MAX_OUTSTANDING` entries (R379); a reset
is taken at any time (R380). -/
def canTake (P : Params) (outstanding : List Entry) : Input → Bool
  | .request _ => outstanding.length < P.maxOutstanding
  | .reset => true

/-- The next event. Responses come in any order and after any finite delay (R80, R376, R378): where
more than one action is open to the block, the free value `schedule` picks one. Where one alone is
open, it happens. -/
def nextEventOf (P : Params) (schedule : Nat → Nat) (s : State) : Event :=
  match s.outstanding, s.inputs with
  | [], [] => .idle
  | [], i :: rest => takeInput i rest
  | e :: es, [] => .answer (schedule s.tick % (e :: es).length)
  | e :: es, i :: rest =>
    if canTake P (e :: es) i then
      let k := schedule s.tick % ((e :: es).length + 1)
      if k = (e :: es).length then takeInput i rest else .answer k
    else .answer (schedule s.tick % (e :: es).length)

/-- The next event of the machine. -/
def nextEvent (s : State) : Event := nextEventOf Config.params Config.schedule s

end Sys2Proof.Machine
end

