-- ==== Sys2Proof/Machine/Policy.lean ====
section
/-! DEFINITION. generation_policy_mux: resolving the policy slots and `configOk`
(spec/40_generation_policy_mux.md R132 to R134, R147). -/

namespace Sys2Proof.Machine

/-! ## Resolution (R134) -/

/-- The entry of the first generation of `g`, `GEN_PARENT(g)`, … that has one, looking at no more
than `fuel` generations. -/
def resolveFrom {α : Type} (parent : Nat → Option Nat) (slot : Nat → Option α) :
    (fuel g : Nat) → Option α
  | 0, _ => none
  | fuel + 1, g =>
    match slot g with
    | some e => some e
    | none =>
      match parent g with
      | none => none
      | some g' => resolveFrom parent slot fuel g'

/-- `resolve(g, n, k)` for a slot at its key (R134). The chain of a generation is acyclic, so it has
at most `NUM_GENERATIONS` members. -/
def resolve {α : Type} (P : Params) (slot : PolicyTable → Option α) (g : Nat) : Option α :=
  resolveFrom P.genParent (fun g' => slot (P.policy g')) P.numGenerations g

/-- `k(cfg)` (R133). -/
def policyKey (c : Configuration) : PolicyKey :=
  ⟨c.partitionCount.toNat, c.xbarSliceCount.toNat, c.l2SetCount.toNat, c.dramBankCount.toNat⟩

/-- The generation number of a configuration (R32, R49). -/
def cfgGen (c : Configuration) : Nat := c.generation.toNat

/-- `eng.policy`: every slot but `SUPPORTED` and `ksHash`, resolved for `cfg.generation` and
`k(cfg)`; none when one of them has "no entry" (R49, R131, R134). -/
def resolvePolicy (P : Params) (c : Configuration) : Option Policy :=
  match resolve P (·.partCorr (policyKey c)) (cfgGen c),
        resolve P (·.sliceOf (policyKey c)) (cfgGen c),
        resolve P (·.l2Fold (policyKey c)) (cfgGen c),
        resolve P (·.l2Combine (policyKey c)) (cfgGen c),
        resolve P (·.bankHash (policyKey c)) (cfgGen c),
        resolve P (·.subPartOf (policyKey c)) (cfgGen c) with
  | some partCorr, some sliceOf, some l2Fold, some l2Combine, some bankHash, some subPartOf =>
    some { partCorr, sliceOf, l2Fold, l2Combine, bankHash, subPartOf }
  | _, _, _, _, _, _ => none

/-- The per-request kind lookup (R147). -/
def lookupKs (P : Params) (c : Configuration) (p : PageSizeClass) (k : SurfaceKind) :
    Option KsEntry :=
  resolve P (·.ksHash c.partitionCount.toNat p k) (cfgGen c)

/-! ## `configOk` (R132). The order of the items has no effect on the answer; those that read the
configuration alone come first. -/

/-- Items 2 and 3. -/
def countsOk (c : Configuration) : Bool :=
  (1 ≤ cfgPC c && cfgPC c ≤ 16) &&
    (isPow2 c.xbarSliceCount.toNat && isPow2 c.l2SetCount.toNat && isPow2 (cfgNB c))

/-- Item 4. -/
def setBitsOk (c : Configuration) : Bool := cfgS c ≤ 63 && c.l2SetCount.toNat == 2 ^ cfgS c

/-- Item 5. -/
def bankGroupOk (c : Configuration) : Bool := cfgExt c ≤ 63 && cfgG c < 2 ^ 64

/-- Item 6. -/
def pageOk (c : Configuration) : Bool :=
  isPow2 (cfgGRAN c) && isPow2 (cfgPAGE c) && cfgGRAN c ≤ cfgPAGE c

/-- Item 7. -/
def interleaveOk (c : Configuration) : Bool := 1 ≤ cfgPIB c && cfgPIB c % cfgGRAN c == 0

/-- Item 12. -/
def reachOk (c : Configuration) : Bool := cfgPIB c ≤ cfgG c * cfgPAGE c

/-- Items 8 and 9. -/
def granuleFits (P : Params) (c : Configuration) : Bool :=
  P.l2SectorBytes % cfgGRAN c == 0 && cfgGRAN c ≤ 2 ^ P.tileFieldLsb

/-- Items 1, 10 and 11. `SUPPORTED_g` belongs to the generation alone (R134). -/
def generationOk (P : Params) (c : Configuration) : Bool :=
  cfgGen c < P.numGenerations && (P.policy (cfgGen c)).supported c && (resolvePolicy P c).isSome

/-- `configOk(c)` (R132). -/
def configOk (P : Params) (c : Configuration) : Bool :=
  countsOk c && setBitsOk c && bankGroupOk c && pageOk c && interleaveOk c && reachOk c &&
    granuleFits P c && generationOk P c

end Sys2Proof.Machine
end

