-- ==== Sys2Proof/Machine/Configure.lean ====
section
/-! DEFINITION. CONFIGURE (spec/40_generation_policy_mux.md R130, R131, R144 to R146). -/

namespace Sys2Proof.Machine

/-- The answer of a CONFIGURE (R104, R131). -/
def configureReply (P : Params) (trace : Bool) (c : Configuration) : Reply :=
  if trace then raise .illegalRequest
  else if configOk P c then respond .ok []
  else raise .configUnsupported

/-- The engine a CONFIGURE leaves (R131, R144, R145). After ConfigUnsupported the registers are
unspecified: they hold the free value `unspecified`. -/
def configureEngine (P : Params) (trace : Bool) (c unspecified : Configuration) (e : Engine) :
    Engine :=
  if trace then e
  else if configOk P c then ⟨true, c⟩
  else ⟨false, unspecified⟩

/-- CONFIGURE takes effect at acceptance, all its writes in one step (R131, R374). -/
def execConfigure (tag : Tag) (trace : Bool) (c : Configuration) (s : State) :
    Host.Outcome State Fault Refusal :=
  .next (accept (.operation (.configure tag trace c)) none (configureReply Config.params trace c)
    { s with eng := configureEngine Config.params trace c (Config.unspecifiedCfg s.tick) s.eng })

end Sys2Proof.Machine
end

