-- ==== Sys2Proof/Machine/Cache.lean ====
section
/-! DEFINITION. cache_slice_selector (spec/44_cache_slice_selector.md R230 to R232) and
cache_address_hash (spec/45_cache_address_hash.md R240 to R247). -/

namespace Sys2Proof.Machine

/-- `sliceId` (R230). It has no inverse (R231), and the block does not clamp it (R232). -/
def sliceSelect (pol : Policy) (quotient offset : Nat) : Nat := pol.sliceOf quotient offset

/-- `combineFwd` (R241, R242) for a set of `s` bits. -/
def combineFwd (s : Nat) : Combine → (low h : Nat) → Nat
  | .xor, low, h => low ^^^ h
  | .addMod, low, h => (low + h) % 2 ^ s

/-- `combineInv` (R243). The subtraction `v + 2^s − h` is exact modulo `2^s` also for a fold `h` of
`2^s` or more, which law R139 excludes (DEDUCED: log entry 9). -/
def combineInv (s : Nat) : Combine → (v h : Nat) → Nat
  | .xor, v, h => v ^^^ h
  | .addMod, v, h => (v + 2 ^ s - h % 2 ^ s) % 2 ^ s

/-- `l2Hash`: `(l2Tag, l2Set)` (R240). -/
def l2Hash (c : Configuration) (pol : Policy) (quotient : Nat) : Nat × Nat :=
  let l2Tag := quotient >>> cfgS c
  let low := quotient % 2 ^ cfgS c
  (l2Tag, combineFwd (cfgS c) pol.l2Combine low (pol.l2Fold l2Tag))

/-- `l2Unhash` (R243). -/
def l2Unhash (c : Configuration) (pol : Policy) (l2Tag l2Set : Nat) : Nat :=
  (l2Tag <<< cfgS c) ||| combineInv (cfgS c) pol.l2Combine l2Set (pol.l2Fold l2Tag)

/-- `l2OffsetSplit`: `(l2Offset, l2Sector, l2BankId)` (R245). -/
def l2OffsetSplit (P : Params) (offset : Nat) : Nat × Nat × Nat :=
  (offset % P.l2SectorBytes, offset / P.l2SectorBytes % P.l2SectorsPerLine,
   offset / (P.l2SectorBytes * P.l2SectorsPerLine))

end Sys2Proof.Machine
end

