-- ==== Sys2Proof/Machine/Dram.lean ====
section
/-! DEFINITION. dram_coordinate_mapper (spec/46_dram_coordinate_mapper.md R260 to R276). -/

namespace Sys2Proof.Machine

/-- `xbarRawAddress = (l2Tag << s) | l2Set` (R260). -/
def xbarCompose (c : Configuration) (l2Tag l2Set : Nat) : Nat := (l2Tag <<< cfgS c) ||| l2Set

/-- `eccMap` (R261). -/
def eccMap (P : Params) (c : Configuration) (x : Nat) : Nat :=
  if c.eccEnabled then P.eccCompact x else x

/-- The inverse of `eccMap` that ENCODE applies (R275). -/
def eccMapInv (P : Params) (c : Configuration) (y : Nat) : Nat :=
  if c.eccEnabled then P.eccExpand y else y

/-- The `w`-bit field rotated left by `r` (R264). -/
def rotateLeft (w r lo : Nat) : Nat := ((lo <<< r) ||| (lo >>> (w - r))) % 2 ^ w

/-- The `w`-bit field rotated right by `r` (R275). -/
def rotateRight (w r lo : Nat) : Nat := ((lo >>> r) ||| (lo <<< (w - r))) % 2 ^ w

/-- Applies `rot` to the low `w` bits of `x`; the bits above pass unchanged (R264). -/
def onLowField (w : Nat) (rot : Nat → Nat) (x : Nat) : Nat :=
  let lo := x % 2 ^ w
  (x - lo) + rot lo

/-- `bankRotate` (R264). -/
def bankRotate (P : Params) (c : Configuration) (x : Nat) : Nat :=
  if !c.bankSwizzleEnabled || P.bankRotWidth == 0 then x
  else onLowField P.bankRotWidth (rotateLeft P.bankRotWidth (P.bankRotAmount % P.bankRotWidth)) x

/-- `bankRotateInv` (R275). -/
def bankRotateInv (P : Params) (c : Configuration) (x : Nat) : Nat :=
  if !c.bankSwizzleEnabled || P.bankRotWidth == 0 then x
  else onLowField P.bankRotWidth (rotateRight P.bankRotWidth (P.bankRotAmount % P.bankRotWidth)) x

/-- The fold of R270: the exclusive OR of the table elements whose bit of `bits` is set, the first
element standing for bit 0. -/
def tableFold : List Nat → (bits : Nat) → Nat
  | [], _ => 0
  | t :: ts, bits => (if bits % 2 = 1 then t else 0) ^^^ tableFold ts (bits / 2)

/-- `bankHash(rowId)` (R269, R270). -/
def bankHashOf : BankHash → (rowId : Nat) → Nat
  | .fixedTerm f, rowId => f rowId
  | .tableFold baseShift table, rowId => tableFold table (rowId >>> baseShift)

/-- `rowCol`: `(rowId, columnId)` (R271). -/
def rowCol (c : Configuration) (rawBankGroup offset : Nat) : Nat × Nat :=
  let b := rawBankGroup * cfgPIB c + offset
  (b / cfgPAGE c, b % cfgPAGE c / cfgGRAN c)

/-- The inverse of `rowCol`: `(rawBankGroup, offset)` (R274). -/
def rowColInv (c : Configuration) (rowId columnId : Nat) : Nat × Nat :=
  let b := rowId * cfgPAGE c + columnId * cfgGRAN c
  (b / cfgPIB c, b % cfgPIB c)

/-- `(bankId, rankId)` from the permuted pair and the swizzle value (R268). Exclusive OR is its own
inverse, so the same function serves R273. -/
def bankSwap (c : Configuration) (sw : Nat) (bank rank : Nat) : Nat × Nat :=
  (bank ^^^ sw % cfgNB c, rank ^^^ sw / cfgNB c)

/-- `subPartitionId` (R272). -/
def subPartition (pol : Policy) (bankAddress offset : Nat) : Nat := pol.subPartOf bankAddress offset

end Sys2Proof.Machine
end

