-- ==== Sys2Proof/Machine/KindSwizzle.lean ====
section
/-! DEFINITION. kind_swizzle_stage (spec/42_kind_swizzle_stage.md R190 to R196). -/

namespace Sys2Proof.Machine

/-- Replaces the 5-bit field at `TILE_FIELD_LSB` by what `table` gives for it (R190, R192). -/
def tileRemap (P : Params) (table : Fin 32 → Fin 32) (a : Word) : Word :=
  let lsb := P.tileFieldLsb
  let f := bitField a.toNat (lsb + 4) lsb
  BitVec.ofNat 64 (insertField a.toNat lsb 5 (table (Fin.ofNat 32 f)).val)

/-- `tileLookup` (R190, R191). -/
def tileLookup (P : Params) (a : Word) : SurfaceKind → Word
  | .tiled => tileRemap P P.kindTileTable a
  | .linear => a
  | .linearUnswizzled => a

/-- `tileLookupInv` (R192). -/
def tileLookupInv (P : Params) (r : Word) : SurfaceKind → Word
  | .tiled => tileRemap P P.kindTileTableInv r
  | .linear => r
  | .linearUnswizzled => r

/-- `kindSwizzledAddress = H(rawAddress)` (R193). -/
def kindHash (ks : KsEntry) (raw : Word) : Word := ks.hash raw

/-- `rawAddress = Hinv(kindSwizzledAddress)` (R194). -/
def kindHashInv (ks : KsEntry) (ksa : Word) : Word := ks.hashInv ksa

end Sys2Proof.Machine
end

