-- ==== Sys2Proof/Machine/Partition.lean ====
section
/-! DEFINITION. partition_distributor (spec/43_partition_distributor.md R210 to R216). -/

namespace Sys2Proof.Machine

/-- `partitionSplit`: `(offset, quotient, remainder)` (R210). -/
def partitionSplit (c : Configuration) (ksa : Nat) : Nat × Nat × Nat :=
  let offset := ksa % cfgPIB c
  let t := ksa / cfgPIB c
  (offset, t / cfgPC c, t % cfgPC c)

/-- `partitionOf(remainder, quotient)` (R211 to R213). The correction is read only when `PC` is not
a power of two. -/
def partitionOf (c : Configuration) (pol : Policy) (remainder quotient : Nat) : Nat :=
  if isPow2 (cfgPC c) then remainder else (remainder + pol.partCorr quotient) % cfgPC c

/-- `partitionJoin(quotient, remainder, offset)` (R214). -/
def partitionJoin (c : Configuration) (quotient remainder offset : Nat) : Nat :=
  (quotient * cfgPC c + remainder) * cfgPIB c + offset

/-- `remainderOf(partitionId, quotient)` (R215). -/
def remainderOf (c : Configuration) (pol : Policy) (partitionId quotient : Nat) : Nat :=
  if isPow2 (cfgPC c) then partitionId
  else (partitionId + cfgPC c - pol.partCorr quotient % cfgPC c) % cfgPC c

end Sys2Proof.Machine
end

