-- ==== Sys2Proof/Machine/Decoder.lean ====
section
/-! DEFINITION. DECODE (spec/41_address_interleave_decoder.md R170 to R179). -/

namespace Sys2Proof.Machine

/-- The five stages forward (R172). -/
def decodePipeline (P : Params) (pol : Policy) (ks : KsEntry) (c : Configuration) (a : Word)
    (k : SurfaceKind) : Decoded :=
  -- stage 1: kind_swizzle_stage
  let rawAddress := tileLookup P a k
  let kindSwizzledAddress := kindHash ks rawAddress
  -- stage 2: partition_distributor
  let (offset, quotient, remainder) := partitionSplit c kindSwizzledAddress.toNat
  let partitionId := partitionOf c pol remainder quotient
  -- stage 3: cache_slice_selector
  let sliceId := sliceSelect pol quotient offset
  -- stage 4: cache_address_hash
  let (l2Tag, l2Set) := l2Hash c pol quotient
  let (l2Offset, l2Sector, l2BankId) := l2OffsetSplit P offset
  -- stage 5: dram_coordinate_mapper
  let xbarRawAddress := xbarCompose c l2Tag l2Set
  let eccAddress := eccMap P c xbarRawAddress
  let bankAddress := bankRotate P c eccAddress
  let rawBankGroup := bankAddress / cfgG c
  let tmp := bankAddress % cfgG c
  let (rowId, columnId) := rowCol c rawBankGroup offset
  let (bank0, rank0) := P.bankPerm (cfgNB c) (cfgExt c) tmp
  let sw := bankHashOf pol.bankHash rowId
  let (bankId, rankId) := bankSwap c sw bank0 rank0
  let subPartitionId := subPartition pol bankAddress offset
  { loc :=
      { partitionId, subPartitionId, rankId, bankId, rowId, columnId, sliceId, l2Set, l2Tag,
        l2Sector, l2BankId, xbarRawAddress }
    trace :=
      { rawAddress := rawAddress.toNat, kindSwizzledAddress := kindSwizzledAddress.toNat, offset,
        quotient, remainder, l2Offset, xbarRawAddress, eccAddress, bankAddress, rawBankGroup, tmp,
        bankHash := sw } }

/-- The payload of a successful DECODE under `c` (R102). Words w11 and t6 carry the same value. -/
def decodePayload (c : Configuration) (trace : Bool) (d : Decoded) : List Word :=
  let loc := coordinatesLocation (cfgS c) d.loc
  locationWords loc ++ if trace then traceWords loc.xbarRawAddress d.trace else []

/-- The answer of a DECODE bound to the engine `e`: checks 2 to 5 of R171, then R172. Check 1 is the
decoder's (Decode.lean). A valid engine has a resolved policy (R132 item 11); the last `none` is
met in no state that a run reaches. -/
def decodeReply (P : Params) (e : Engine) (trace : Bool) (a : Word) (kind : Option SurfaceKind)
    (page : Option PageSizeClass) : Reply :=
  if !e.valid then raise .configUnsupported
  else
    match kind, page with
    | none, _ => raise .invalidSurfaceKind
    | some _, none => raise .invalidPageSize
    | some k, some p =>
      match lookupKs P e.cfg p k, resolvePolicy P e.cfg with
      | none, _ => raise .configUnsupported
      | some _, none => raise .configUnsupported
      | some ks, some pol =>
        respond .ok (decodePayload e.cfg trace (decodePipeline P pol ks e.cfg a k))

/-- DECODE is bound at acceptance to the current engine and answered for that binding (R75, R374). It
changes no state but `outstanding` (R76, R173). -/
def execDecode (tag : Tag) (trace : Bool) (byteOffset : Word) (kind : Option SurfaceKind)
    (page : Option PageSizeClass) (s : State) : Host.Outcome State Fault Refusal :=
  .next (accept (.operation (.decode tag trace byteOffset kind page)) (some s.eng)
    (decodeReply Config.params s.eng trace byteOffset kind page) s)

end Sys2Proof.Machine
end

