-- ==== Sys2Proof/Machine/Encoder.lean ====
section
/-! DEFINITION. ENCODE (spec/47_address_interleave_encoder.md R300 to R316). -/

namespace Sys2Proof.Machine

/-- The range checks of R303. -/
def inRange (c : Configuration) (l : PhysicalLocation) : Bool :=
  l.partitionId.toNat < cfgPC c && l.bankId.toNat < cfgNB c && l.rankId.toNat < 2 ^ cfgExt c &&
    l.columnId.toNat < cfgPAGE c / cfgGRAN c

/-- The inverse stages, 5 to 1, after the range checks (R304). None is an overflow of R309, at each of
the three points that R304 marks. -/
def encodePipeline (P : Params) (pol : Policy) (ks : KsEntry) (c : Configuration)
    (l : PhysicalLocation) (k : SurfaceKind) : Option Encoded :=
  let partitionId := l.partitionId.toNat
  let rowId := l.rowId.toNat
  -- stage 5 inverse: dram_coordinate_mapper
  let sw := bankHashOf pol.bankHash rowId
  let (bank0, rank0) := bankSwap c sw l.bankId.toNat l.rankId.toNat
  let tmp := P.bankPermInv (cfgNB c) (cfgExt c) bank0 rank0
  let (rawBankGroup, offset) := rowColInv c rowId l.columnId.toNat
  let bankAddress := rawBankGroup * cfgG c + tmp
  if 2 ^ 64 ≤ bankAddress then none
  else
    let eccAddress := bankRotateInv P c bankAddress
    let xbarRawAddress := eccMapInv P c eccAddress
    if 2 ^ 64 ≤ xbarRawAddress then none
    else
      let l2Tag := xbarRawAddress >>> cfgS c
      let l2Set := xbarRawAddress % 2 ^ cfgS c
      -- stage 4 inverse: cache_address_hash
      let quotient := l2Unhash c pol l2Tag l2Set
      -- stage 2 inverse: partition_distributor (stage 3 has none, R231)
      let remainder := remainderOf c pol partitionId quotient
      let kindSwizzledAddress := partitionJoin c quotient remainder offset
      if 2 ^ 64 ≤ kindSwizzledAddress then none
      else
        -- stage 1 inverse: kind_swizzle_stage
        let rawAddress := kindHashInv ks (BitVec.ofNat 64 kindSwizzledAddress)
        some
          { byteOffset := tileLookupInv P rawAddress k
            trace :=
              { rawAddress := rawAddress.toNat, kindSwizzledAddress, offset, quotient, remainder,
                l2Offset := offset % P.l2SectorBytes, xbarRawAddress, eccAddress, bankAddress,
                rawBankGroup, tmp, bankHash := sw } }

/-- The payload of a successful ENCODE (R103). -/
def encodePayload (trace : Bool) (k : SurfaceKind) (p : PageSizeClass) (e : Encoded) : List Word :=
  [e.byteOffset, modeWord (some k) (some p)] ++
    if trace then traceWords (zext64 e.trace.xbarRawAddress) e.trace else []

/-- The answer of an ENCODE bound to the engine `e`: checks 2 to 8 of R301, in their order, then R304.
Check 1 is the decoder's (Decode.lean). A valid engine has a resolved policy (R132 item 11). -/
def encodeReply (P : Params) (e : Engine) (trace : Bool) (l : PhysicalLocation)
    (kind : Option SurfaceKind) (page : Option PageSizeClass) (eccOn : Bool) : Reply :=
  if !e.valid then raise .configUnsupported
  else if eccOn != e.cfg.eccEnabled then raise .inconsistentEccState
  else
    match kind, page with
    | none, _ => raise .invalidSurfaceKind
    | some _, none => raise .invalidPageSize
    | some k, some p =>
      match lookupKs P e.cfg p k, resolvePolicy P e.cfg with
      | none, _ => raise .configUnsupported
      | some _, none => raise .configUnsupported
      | some ks, some pol =>
        if !inRange e.cfg l then raise .invalidLocation
        else
          match encodePipeline P pol ks e.cfg l k with
          | none => raise .invalidLocation
          | some r => respond .ok (encodePayload trace k p r)

/-- ENCODE is bound at acceptance to the current engine and answered for that binding (R75, R374). It
changes no state but `outstanding` (R76, R310). -/
def execEncode (tag : Tag) (trace : Bool) (loc : PhysicalLocation) (kind : Option SurfaceKind)
    (page : Option PageSizeClass) (eccOn : Bool) (s : State) : Host.Outcome State Fault Refusal :=
  .next (accept (.operation (.encode tag trace loc kind page eccOn)) (some s.eng)
    (encodeReply Config.params s.eng trace loc kind page eccOn) s)

end Sys2Proof.Machine
end

