-- ==== Sys2Proof/Machine/Dispatch.lean ====
section
/-! DEFINITION. One arm per operation (spec/30_encoding.md R93, spec/opcode_table.json). -/

namespace Sys2Proof.Machine

def exec (i : Instr) (s : State) : Host.Outcome State Fault Refusal :=
  match i with
  | .configure tag trace c => Sys2Proof.Machine.execConfigure tag trace c s
  | .decode tag trace byteOffset kind page => Sys2Proof.Machine.execDecode tag trace byteOffset kind page s
  | .encode tag trace loc kind page eccOn => Sys2Proof.Machine.execEncode tag trace loc kind page eccOn s

end Sys2Proof.Machine
end

