-- ==== Sys2Proof/Machine/Step.lean ====
section
/-! DEFINITION. One step of the block: it takes a request, delivers a response, or is reset
(spec/70_reset_and_hazards.md R370, R374, R376, R379). -/

namespace Sys2Proof.Machine

/-- One step. An accepted request of legal form runs as its operation; one of illegal form is answered
IllegalRequest (R110). -/
def step (s : State) : Host.Outcome State Fault Refusal :=
  match nextEvent s with
  | .idle => .next s
  | .answer k => .next (answer k s)
  | .reset rest => .next (platformReset s rest)
  | .accept r rest =>
    match decodeRequest r with
    | .ok i => exec i (fetched s rest)
    | .error why => .next (acceptIllegal r why (fetched s rest))

/-- `s` with the request whose bits are `w` (as decodeTableWord lays it out) at the head of the request
channel, from which `step` takes its next request. Nothing is left in `outstanding`, so that no
delivery can come first. This is the host's sending of a request (log entry 8). -/
def State.withFetchWord (s : State) (nbits w : Nat) : State :=
  { s with inputs := .request (requestOfTableWord nbits w) :: s.inputs, outstanding := [] }

end Sys2Proof.Machine
end

