-- ==== Sys2Proof/Safety.lean ====
section
/-! DEFINITION. The terms that claims use: a step that does not stop, the invariant of the block, the
order-free meaning of a run (spec/20_memory.md R79 to R81, spec/70_reset_and_hazards.md R374 to R382)
and the laws the parameters may satisfy (spec/40_generation_policy_mux.md R135 to R143). -/

namespace Sys2Proof.Machine

/-! ## Safe steps -/

/-- The machine goes on: neither a fault nor a refusal (R330, R339). -/
def Safe (o : Host.Outcome State Fault Refusal) : Prop := ∃ t, o = .next t

/-- Nothing is sent and nothing is outstanding: a run has ended (R381). -/
def quiescent (s : State) : Bool := s.inputs.isEmpty && s.outstanding.isEmpty

/-- An upper bound on the steps until the block is quiescent: every input is taken once and every
accepted request is answered once (R376, R379). -/
def pendingWork (s : State) : Nat := 2 * s.inputs.length + s.outstanding.length

/-- `CONFIGURED(c)` (R382), with channels that carry nothing. -/
def configured (c : Configuration) : State := { State.reset with eng := ⟨true, c⟩ }

/-! ## What an accepted request is answered -/

/-- The answer of an accepted request against the engine it is bound to (R79, R374). An operation
that reads the engine and is bound to none does not arise (`EntryOk`). -/
def replyFor (P : Params) : Accepted → Option Engine → Reply
  | .illegal _ _ _, _ => raise .illegalRequest
  | .operation (.configure _ trace c), _ => configureReply P trace c
  | .operation (.decode _ trace a kind page), some e => decodeReply P e trace a kind page
  | .operation (.encode _ trace l kind page eccOn), some e =>
    encodeReply P e trace l kind page eccOn
  | .operation (.decode _ _ _ _ _), none => raise .configUnsupported
  | .operation (.encode _ _ _ _ _ _), none => raise .configUnsupported

/-- DECODE and ENCODE bind an engine; CONFIGURE and illegal requests bind none (R374). -/
def bindsEngine : Accepted → Bool
  | .operation (.decode _ _ _ _ _) => true
  | .operation (.encode _ _ _ _ _ _) => true
  | _ => false

/-- A valid engine holds a configuration that CONFIGURE accepts (R46, R50). -/
def EngineOk (P : Params) (e : Engine) : Prop := e.valid = true → configOk P e.cfg = true

/-- An outstanding request waits with the answer its own engine gives (R374), whatever has been
accepted since. -/
structure EntryOk (P : Params) (e : Entry) : Prop where
  response : e.response = responseTo e.what (replyFor P e.what e.bound)
  binding : e.bound.isSome = bindsEngine e.what
  engine : ∀ b, e.bound = some b → EngineOk P b

/-- The invariant of the block (R46, R50, R51, R374, R379). -/
structure Inv (s : State) : Prop where
  engine : EngineOk Config.params s.eng
  entries : ∀ e ∈ s.outstanding, EntryOk Config.params e
  bounded : s.outstanding.length ≤ Config.params.maxOutstanding

/-- The reply answers OK, and its payload begins with the words `ws` (R102, R103). -/
def answersOk (r : Reply) (ws : List Word) : Prop := r.status = .ok ∧ r.payload.take ws.length = ws

/-- A run of bytes carries a header and payload words: four bytes and eight for each word, byte `k` of
each holding its bits `8k+7 .. 8k` (R72, R90). -/
def carriesWords (bytes : List Byte) (header : HeaderWord) (payload : List Word) : Prop :=
  bytes.length = 4 + 8 * payload.length ∧
    (∀ k, k < 4 → bytes[k]? = some (header.extractLsb' (8 * k) 8)) ∧
    ∀ i w, payload[i]? = some w → ∀ k, k < 8 →
      bytes[4 + 8 * i + k]? = some (w.extractLsb' (8 * k) 8)

/-- The illegal forms of R110, read from the request's words as numbers. -/
def illegalRequestForm (r : Request) : Prop :=
  let h := r.header.toNat
  let op := bitField h 3 0
  let word (i : Nat) : Nat := (r.payload.getD i 0).toNat
  bitField h 7 5 ≠ 0 ∨ bitField h 31 16 ≠ 0 ∨ op = 0 ∨ 4 ≤ op ∨
    (op = 1 ∧ (bitField h 4 4 = 1 ∨ r.payload.length ≠ 14 ∨ 2 ≤ word 11 ∨ 2 ≤ word 12)) ∨
    (op = 2 ∧ (r.payload.length ≠ 2 ∨ 16 ≤ word 1)) ∨
    (op = 3 ∧ (r.payload.length ≠ 13 ∨ 32 ≤ word 12))

/-! ## The meaning of a run without an order (R79, R80, R381) -/

/-- What a run lets the host observe of the engine (R381): its configuration when it is valid. -/
def observed (e : Engine) : Option Configuration := if e.valid then some e.cfg else none

/-- An engine with a given observation. -/
def engineOf : Option Configuration → Engine
  | some c => ⟨true, c⟩
  | none => Engine.afterReset

/-- The observation that an operation leaves (R131, R144, R145, R173, R310). -/
def engineAfter (P : Params) (o : Option Configuration) : Instr → Option Configuration
  | .configure _ trace c => if trace then o else if configOk P c then some c else none
  | .decode _ _ _ _ _ => o
  | .encode _ _ _ _ _ _ => o

/-- One request served alone: what it leaves of the engine, and its response. -/
def serveOne (P : Params) (o : Option Configuration) (r : Request) :
    Option Configuration × Response :=
  match decodeRequest r with
  | .error why =>
    (o, responseTo (.illegal (opOf r.header) (tagOf r.header) why) (raise .illegalRequest))
  | .ok i =>
    (engineAfter P o i, responseTo (.operation i) (replyFor P (.operation i) (some (engineOf o))))

/-- Requests served one after another, each answered before the next is taken. -/
def serveAll (P : Params) : Option Configuration → List Request → Option Configuration × List Response
  | o, [] => (o, [])
  | o, r :: rs =>
    let (o', a) := serveOne P o r
    let (o'', as) := serveAll P o' rs
    (o'', a :: as)

/-! ## Laws of the parameters (D52: hypotheses of theorems, checked by nothing) -/

/-- The laws of the resolved stage functions under a configuration (R138 to R141). R137 asks nothing
of `partCorr`. -/
structure PolicyLaws (P : Params) (c : Configuration) (pol : Policy) : Prop where
  /-- R138. -/
  sliceOf_lt : ∀ q o, pol.sliceOf q o < c.xbarSliceCount.toNat
  /-- R138. -/
  sliceOf_granule : ∀ q o o', o / cfgGRAN c = o' / cfgGRAN c → pol.sliceOf q o = pol.sliceOf q o'
  /-- R139. -/
  l2Fold_lt : ∀ t, pol.l2Fold t < 2 ^ cfgS c
  /-- R140. -/
  fixedTerm_lt : ∀ f, pol.bankHash = .fixedTerm f → ∀ r, f r < cfgG c
  /-- R140. -/
  tableFold_lt : ∀ b T, pol.bankHash = .tableFold b T → ∀ t ∈ T, t < cfgG c
  /-- R141. -/
  subPartOf_lt : ∀ b o, pol.subPartOf b o < P.subpartitionCount
  /-- R141. -/
  subPartOf_granule :
    ∀ b o o', o / cfgGRAN c = o' / cfgGRAN c → pol.subPartOf b o = pol.subPartOf b o'

/-- `pageMask` as a word. -/
def pageMaskWord (c : Configuration) : Word := BitVec.ofNat 64 (pageMask c)

/-- The laws of a kind-swizzle entry (R136). -/
structure KsLaws (c : Configuration) (ks : KsEntry) : Prop where
  hashInv_hash : ∀ x, ks.hashInv (ks.hash x) = x
  hash_hashInv : ∀ y, ks.hash (ks.hashInv y) = y
  hash_mask : ∀ x, ks.hash x &&& pageMaskWord c = x &&& pageMaskWord c
  hash_clear : ∀ x, ks.hash (x &&& ~~~pageMaskWord c) = ks.hash x &&& ~~~pageMaskWord c

/-- `KIND_TILE_TABLE` is a permutation with inverse `KIND_TILE_TABLE_INV` (R143). -/
structure TileLaws (P : Params) : Prop where
  inv_table : ∀ i, P.kindTileTableInv (P.kindTileTable i) = i
  table_inv : ∀ j, P.kindTileTable (P.kindTileTableInv j) = j

/-- `BANK_PERM` is a bijection onto bank × rank with inverse `BANK_PERM_INV` (R143). -/
structure BankPermLaws (P : Params) (c : Configuration) : Prop where
  perm_lt : ∀ t, t < cfgG c → (P.bankPerm (cfgNB c) (cfgExt c) t).1 < cfgNB c ∧
    (P.bankPerm (cfgNB c) (cfgExt c) t).2 < 2 ^ cfgExt c
  inv_perm : ∀ t, t < cfgG c → P.bankPermInv (cfgNB c) (cfgExt c)
    (P.bankPerm (cfgNB c) (cfgExt c) t).1 (P.bankPerm (cfgNB c) (cfgExt c) t).2 = t
  inv_lt : ∀ b r, b < cfgNB c → r < 2 ^ cfgExt c →
    P.bankPermInv (cfgNB c) (cfgExt c) b r < cfgG c
  perm_inv : ∀ b r, b < cfgNB c → r < 2 ^ cfgExt c →
    P.bankPerm (cfgNB c) (cfgExt c) (P.bankPermInv (cfgNB c) (cfgExt c) b r) = (b, r)

/-- The laws R136 to R141 and R143 for one configuration. -/
structure LawsAt (P : Params) (c : Configuration) : Prop where
  policy : ∀ pol, resolvePolicy P c = some pol → PolicyLaws P c pol
  kind : ∀ p k ks, lookupKs P c p k = some ks → KsLaws c ks
  tile : TileLaws P
  bankPerm : BankPermLaws P c

/-- The default ECC maps (R262). -/
structure EccDefault (P : Params) : Prop where
  compact : ∀ x, P.eccCompact x = x - x / 16
  expand : ∀ y, P.eccExpand y = y + y / 15

/-- What a replacement pair of ECC maps must keep (R262). -/
structure EccLaws (P : Params) : Prop where
  compact_expand : ∀ y, P.eccCompact (P.eccExpand y) = y
  compact_mono : ∀ x y, x ≤ y → P.eccCompact x ≤ P.eccCompact y
  expand_mono : ∀ x y, x ≤ y → P.eccExpand x ≤ P.eccExpand y
  compact_le : ∀ x, P.eccCompact x ≤ x

/-- The source's worked example read as a law on the true constants (R248). The block checks nothing,
and TP0 is exempt. -/
def WorkedExampleLaw (P : Params) (weSwizzle : Fin 4 → Fin 4 → Nat) : Prop :=
  ∀ c ks pol, configOk P c = true → cfgPC c = 1 → c.eccEnabled = false →
    c.bankSwizzleEnabled = false → lookupKs P c .small .tiled = some ks →
    resolvePolicy P c = some pol → ∀ a,
      let d := decodePipeline P pol ks c a .tiled
      let A := d.trace.rawAddress
      bitField d.loc.l2Set 0 0 = bitField A 8 8 ^^^ bitField A 13 13 ^^^
          bitField (weSwizzle (Fin.ofNat 4 (bitField A 14 13)) (Fin.ofNat 4 (bitField A 16 15))) 1 1 ∧
        bitField d.trace.kindSwizzledAddress 8 0 = bitField A 8 0

/-! ## Generations (R134) -/

/-- `n` steps along the chain `g`, `GEN_PARENT(g)`, `GEN_PARENT(GEN_PARENT(g))`, … -/
def ancestor (P : Params) (g : Nat) : Nat → Option Nat
  | 0 => some g
  | n + 1 => (ancestor P g n).bind P.genParent

end Sys2Proof.Machine
end

