-- ==== Sys2Proof/Certificates/Slice0/Obligations.lean ====
section
/-! DEFINITION. The statements for the provers. Each docstring names the rules of spec/ that the
statement rests on. -/

open Sys2Proof Sys2Proof.Machine

/-! ## Requests and responses -/

/-- Request words written out from R91, R93 and R99 to R101 decode to the operations they stand for
(the first words are those of spec/95_test_vectors.md program P1). -/
def Obligations.RequestWordsDecode : Prop :=
  decodeRequest ⟨0x00000502#32, [0x1ABC#64, 0x2#64]⟩ =
      .ok (.decode 5 false 0x1ABC (some .tiled) (some .small)) ∧
    decodeRequest ⟨0x00000712#32, [0x12345#64, 0xD#64]⟩ =
      .ok (.decode 7 true 0x12345 (some .linearUnswizzled) none) ∧
    decodeRequest ⟨0x00000403#32, [2, 0, 0, 6, 1, 36, 1, 7, 6, 2, 0, 103, 0x1B#64]⟩ =
      .ok (.encode 4 false
        { partitionId := 2, subPartitionId := 0, rankId := 0, bankId := 6, rowId := 1,
          columnId := 36, sliceId := 1, l2Set := 7, l2Tag := 6, l2Sector := 2, l2BankId := 0,
          xbarRawAddress := 103 } none (some .large) true) ∧
    decodeRequest ⟨0x00000201#32, [0, 3, 2, 16, 4, 8, 1, 1024, 32, 17, 256, 1, 0, 15]⟩ =
      .ok (.configure 2 false
        { generation := 0, partitionCount := 3, xbarSliceCount := 2, l2SetCount := 16,
          l2SetBits := 4, dramBankCount := 8, extBankBits := 1, dramPageSizeBytes := 1024,
          burstSizeBytes := 32, beatSizeBytes := 17, partitionInterleaveBytes := 256,
          bankSwizzleEnabled := true, eccEnabled := false, columnGranuleSizeBytes := 15 })

/-- No bit of an encoding is dropped: every well-formed operation, with every operand, is what the
decoder reads from its words (R91, R93, R97 to R101, R107, R108). -/
def Obligations.DecodeInvertsEncode : Prop :=
  ∀ i : Instr, i.wellFormed = true → decodeRequest (encodeRequest i) = .ok i

/-- A legal request is the only one with its meaning: its words are those the encoder writes for the
operation it decodes to, and that operation is well formed (R90 to R101). -/
def Obligations.EncodeInvertsDecode : Prop :=
  ∀ (r : Request) (i : Instr), decodeRequest r = .ok i →
    encodeRequest i = r ∧ i.wellFormed = true

/-- The decoder turns away exactly the illegal forms (R110). -/
def Obligations.DecoderRejectsExactlyIllegalForms : Prop :=
  ∀ r : Request, (∃ why, decodeRequest r = .error why) ↔ illegalRequestForm r

/-- An illegal request is answered IllegalRequest (R110), with its `op` and `tag` copied and no payload
(R336); it is bound to no engine (R374) and changes no state of the block but `outstanding`; it leaves
the request channel. The clause on `tick` is the model's own counter, no rule of the spec (log entry
3, DESIGN CHOICE). -/
def Obligations.IllegalRequestIsAnswered : Prop :=
  ∀ (s : State) (r : Request) (rest : List Input),
    nextEvent s = .accept r rest → illegalRequestForm r →
    ∃ what, step s = .next
      { s with
        inputs := rest
        tick := s.tick + 1
        outstanding := s.outstanding ++ [⟨what, none,
          ⟨.illegalRequest, r.header.extractLsb' 0 4, r.header.extractLsb' 8 8, []⟩⟩] }

/-- The bytes of a request are little-endian and carry it whole: four for the header and eight for
each payload word, byte `k` of each holding its bits `8k+7 .. 8k` (R72, R90), and reading the bytes
gives the request back. `ResponseBytesAreLittleEndian` says the first of responses. -/
def Obligations.RequestBytesRoundTrip : Prop :=
  (∀ (w : Word) (k : Nat), k < 8 →
      (littleEndian 8 w.toNat)[k]? = some (w.extractLsb' (8 * k) 8)) ∧
    (∀ (h : HeaderWord) (k : Nat), k < 4 →
      (littleEndian 4 h.toNat)[k]? = some (h.extractLsb' (8 * k) 8)) ∧
    ∀ r : Request, carriesWords (requestBytes r) r.header r.payload ∧
      requestOfBytes (requestBytes r) = some r

/-- The fields of a response header, and the status codes (R92, R109). -/
def Obligations.ResponseHeaderFields : Prop :=
  (∀ r : Response,
      bitField (responseHeader r).toNat 3 0 = (statusCode r.status).toNat ∧
        bitField (responseHeader r).toNat 7 4 = r.op.toNat ∧
        bitField (responseHeader r).toNat 15 8 = r.tag.toNat ∧
        bitField (responseHeader r).toNat 31 16 = 0) ∧
    statusCode .ok = 0 ∧ statusCode .configUnsupported = 1 ∧ statusCode .invalidSurfaceKind = 2 ∧
    statusCode .invalidPageSize = 3 ∧ statusCode .inconsistentEccState = 4 ∧
    statusCode .invalidLocation = 5 ∧ statusCode .illegalRequest = 6

/-- `decodeTableWord` and `step` agree: the request placed by `withFetchWord` is what the next step
runs (R72, R112, R374). That `withFetchWord` stands for the host's sending, with nothing else
outstanding, is log entry 8; `tick` is the model's own counter (log entry 3). -/
def Obligations.FetchedTableWordRuns : Prop :=
  ∀ (s : State) (nbits w : Nat) (i : Instr), decodeTableWord nbits w = some i →
    step (s.withFetchWord nbits w) =
      exec i { s with outstanding := [], tick := s.tick + 1 }

/-! ## generation_policy_mux and CONFIGURE -/

/-- A slot resolves to the entry of the first generation of the parent chain that has one, and to
"no entry" when none has (R134). -/
def Obligations.ResolveTakesFirstEntry : Prop :=
  ∀ (P : Params) (α : Type) (slot : PolicyTable → Option α) (g : Nat), g < P.numGenerations →
    (∀ e, resolve P slot g = some e ↔
      ∃ n g', ancestor P g n = some g' ∧ slot (P.policy g') = some e ∧
        ∀ m g'', m < n → ancestor P g m = some g'' → slot (P.policy g'') = none) ∧
    (resolve P slot g = none ↔ ∀ n g', ancestor P g n = some g' → slot (P.policy g') = none)

/-- `configOk` holds exactly when the twelve items of R132 hold; otherwise CONFIGURE fails with
ConfigUnsupported. -/
def Obligations.ConfigOkIsTheTwelveItems : Prop :=
  ∀ (P : Params) (c : Configuration),
    let key : PolicyKey :=
      { partitionCount := c.partitionCount.toNat, xbarSliceCount := c.xbarSliceCount.toNat,
        l2SetCount := c.l2SetCount.toNat, dramBankCount := c.dramBankCount.toNat }
    (configOk P c = true ↔
      c.generation.toNat < P.numGenerations ∧
      (1 ≤ c.partitionCount.toNat ∧ c.partitionCount.toNat ≤ 16) ∧
      ((∃ n, c.xbarSliceCount.toNat = 2 ^ n) ∧ (∃ n, c.l2SetCount.toNat = 2 ^ n) ∧
        ∃ n, c.dramBankCount.toNat = 2 ^ n) ∧
      (c.l2SetBits.toNat ≤ 63 ∧ c.l2SetCount.toNat = 2 ^ c.l2SetBits.toNat) ∧
      (c.extBankBits.toNat ≤ 63 ∧ c.dramBankCount.toNat * 2 ^ c.extBankBits.toNat < 2 ^ 64) ∧
      ((∃ n, c.columnGranuleSizeBytes.toNat = 2 ^ n) ∧ (∃ n, c.dramPageSizeBytes.toNat = 2 ^ n) ∧
        c.columnGranuleSizeBytes.toNat ≤ c.dramPageSizeBytes.toNat) ∧
      (1 ≤ c.partitionInterleaveBytes.toNat ∧
        c.partitionInterleaveBytes.toNat % c.columnGranuleSizeBytes.toNat = 0) ∧
      P.l2SectorBytes % c.columnGranuleSizeBytes.toNat = 0 ∧
      c.columnGranuleSizeBytes.toNat ≤ 2 ^ P.tileFieldLsb ∧
      (P.policy c.generation.toNat).supported c = true ∧
      ((resolve P (·.partCorr key) c.generation.toNat).isSome = true ∧
        (resolve P (·.sliceOf key) c.generation.toNat).isSome = true ∧
        (resolve P (·.l2Fold key) c.generation.toNat).isSome = true ∧
        (resolve P (·.l2Combine key) c.generation.toNat).isSome = true ∧
        (resolve P (·.bankHash key) c.generation.toNat).isSome = true ∧
        (resolve P (·.subPartOf key) c.generation.toNat).isSome = true) ∧
      c.partitionInterleaveBytes.toNat ≤
        c.dramBankCount.toNat * 2 ^ c.extBankBits.toNat * c.dramPageSizeBytes.toNat) ∧
    (configOk P c = false → configureReply P false c = ⟨.configUnsupported, []⟩)

/-- CONFIGURE completes from every state and with every operand, and this is all it does (R131, R144,
R145): with a configuration that passes, the fourteen registers and `eng.valid` together, answered OK;
with one that does not, `eng.valid = 0`, the registers being some value, answered ConfigUnsupported;
with `trace = 1`, nothing, answered IllegalRequest. No other state changes, and no earlier request. -/
def Obligations.ConfigureCompletes : Prop :=
  (∀ (tag : Tag) (c : Configuration) (s : State), ∃ unspecified : Configuration,
      exec (.configure tag false c) s = .next
        { s with
          eng := if configOk Config.params c then ⟨true, c⟩ else ⟨false, unspecified⟩
          outstanding := s.outstanding ++ [⟨.operation (.configure tag false c), none,
            ⟨if configOk Config.params c then .ok else .configUnsupported, 0x1#4, tag, []⟩⟩] }) ∧
    ∀ (tag : Tag) (c : Configuration) (s : State),
      exec (.configure tag true c) s = .next
        { s with
          outstanding := s.outstanding ++ [⟨.operation (.configure tag true c), none,
            ⟨.illegalRequest, 0x1#4, tag, []⟩⟩] }

/-! ## DECODE -/

/-- DECODE completes from every state with a valid engine and a named kind and page. Where the policy
has an entry for them, its answer is OK with the twelve words of R172, each written here from the rule
of its stage (R190 to R193, R210, R211, R230, R240 to R242, R245, R260, R261, R264, R266 to R272), and
the twelve trace words when asked (R102, R105); where the kind and page have no entry,
ConfigUnsupported (R147). It is bound to the current engine, and no other state changes (R173, R374).
`resolvePolicy` and `lookupKs` are the entries of R134 and R147: `PolicyIsResolvedPerSlot`. Two points
are the model's choices: a kind and page that have an entry under a policy that has not resolved,
which no run reaches, are answered ConfigUnsupported too (log entry 10, DEDUCED); and the word of a
value of `2^64` or more, which only parameters that break their laws produce, is the free value that
`zext64` gives (log entry 4, DESIGN CHOICE), with w11 and t6 the word `(w8 << s) | w7` (R176, R247). -/
def Obligations.DecodeCompletes : Prop :=
  ∀ (tag : Tag) (trace : Bool) (a : Word) (k : SurfaceKind) (p : PageSizeClass) (s : State),
    s.eng.valid = true →
    exec (.decode tag trace a (some k) (some p)) s = .next
      { s with
        outstanding := s.outstanding ++ [⟨.operation (.decode tag trace a (some k) (some p)),
          some s.eng,
          match lookupKs Config.params s.eng.cfg p k, resolvePolicy Config.params s.eng.cfg with
          | some ks, some pol =>
            let P := Config.params
            let c := s.eng.cfg
            let nb := c.dramBankCount.toNat
            let g := nb * 2 ^ c.extBankBits.toNat
            let pib := c.partitionInterleaveBytes.toNat
            let pc := c.partitionCount.toNat
            let page := c.dramPageSizeBytes.toNat
            let gran := c.columnGranuleSizeBytes.toNat
            let n := c.l2SetBits.toNat
            let raw := match k with
              | .tiled =>
                BitVec.ofNat 64 (insertField a.toNat P.tileFieldLsb 5
                  (P.kindTileTable (Fin.ofNat 32 (a.toNat >>> P.tileFieldLsb % 32))).val)
              | _ => a
            let ksa := (ks.hash raw).toNat
            let offset := ksa % pib
            let quotient := ksa / pib / pc
            let remainder := ksa / pib % pc
            let part := if isPow2 pc then remainder else (remainder + pol.partCorr quotient) % pc
            let l2Tag := quotient / 2 ^ n
            let l2Set := match pol.l2Combine with
              | .xor => quotient % 2 ^ n ^^^ pol.l2Fold l2Tag
              | .addMod => (quotient % 2 ^ n + pol.l2Fold l2Tag) % 2 ^ n
            let xbar := l2Tag * 2 ^ n ||| l2Set
            let w11 := (zext64 l2Tag <<< n) ||| zext64 l2Set
            let ecc := if c.eccEnabled then P.eccCompact xbar else xbar
            let bankAddress := bankRotate P c ecc
            let bytes := bankAddress / g * pib + offset
            let row := bytes / page
            let sw := bankHashOf pol.bankHash row
            let pair := P.bankPerm nb c.extBankBits.toNat (bankAddress % g)
            ⟨.ok, 0x2#4, tag,
              [part, pol.subPartOf bankAddress offset, pair.2 ^^^ sw / nb, pair.1 ^^^ sw % nb, row,
               bytes % page / gran, pol.sliceOf quotient offset, l2Set, l2Tag,
               offset / P.l2SectorBytes % P.l2SectorsPerLine,
               offset / (P.l2SectorBytes * P.l2SectorsPerLine)].map zext64 ++ [w11] ++
              (if trace then
                [raw.toNat, ksa, offset, quotient, remainder, offset % P.l2SectorBytes].map zext64 ++
                  [w11] ++ [ecc, bankAddress, bankAddress / g, bankAddress % g, sw].map zext64
               else [])⟩
          | _, _ => ⟨.configUnsupported, 0x2#4, tag, []⟩⟩] }

/-- The status of a DECODE is the first of checks 2 to 5 of R171 that applies, and OK when none does;
an error has no payload, OK has twelve words, or twenty-four with the trace (R102, R106, R171, R337). -/
def Obligations.DecodeStatusFollowsCheckOrder : Prop :=
  ∀ (P : Params) (e : Engine) (trace : Bool) (a : Word) (kind : Option SurfaceKind)
    (page : Option PageSizeClass), EngineOk P e →
    (decodeReply P e trace a kind page).status =
        (if e.valid = false then .configUnsupported
         else match kind, page with
          | none, _ => .invalidSurfaceKind
          | some _, none => .invalidPageSize
          | some k, some p =>
            if (resolve P (·.ksHash e.cfg.partitionCount.toNat p k) e.cfg.generation.toNat).isSome
            then .ok else .configUnsupported) ∧
      (decodeReply P e trace a kind page).payload.length =
        (if (decodeReply P e trace a kind page).status = .ok then (if trace then 24 else 12) else 0)

/-- The range invariants of every successful DECODE (R175), under the laws R138 to R141 and R143, for
the words of its response. -/
def Obligations.DecodeRangeInvariants : Prop :=
  ∀ (P : Params) (e : Engine) (trace : Bool) (a : Word) (kind : Option SurfaceKind)
    (page : Option PageSizeClass) (l : PhysicalLocation),
    EngineOk P e → (∀ pol, resolvePolicy P e.cfg = some pol → PolicyLaws P e.cfg pol) →
    BankPermLaws P e.cfg →
    answersOk (decodeReply P e trace a kind page) (locationWords l) →
    l.partitionId.toNat < e.cfg.partitionCount.toNat ∧
      l.sliceId.toNat < e.cfg.xbarSliceCount.toNat ∧
      l.bankId.toNat < e.cfg.dramBankCount.toNat ∧
      l.rankId.toNat < 2 ^ e.cfg.extBankBits.toNat ∧
      l.l2Set.toNat < 2 ^ e.cfg.l2SetBits.toNat ∧
      l.columnId.toNat < e.cfg.dramPageSizeBytes.toNat / e.cfg.columnGranuleSizeBytes.toNat ∧
      l.subPartitionId.toNat < P.subpartitionCount

/-- Every value of a successful DECODE fits its 64-bit word, with the bounds of R174: no word is a
free value. That `SUBPARTITION_COUNT` is at most `2^64`, of which R11 says nothing, is a premise (log
entry 4). -/
def Obligations.DecodeValuesFit : Prop :=
  ∀ (P : Params) (c : Configuration) (pol : Policy) (ks : KsEntry) (a : Word) (k : SurfaceKind),
    configOk P c = true → resolvePolicy P c = some pol → PolicyLaws P c pol → BankPermLaws P c →
    (∀ x, P.eccCompact x ≤ x) → P.subpartitionCount ≤ 2 ^ 64 →
    let d := decodePipeline P pol ks c a k
    let loc := coordinatesLocation c.l2SetBits.toNat d.loc
    d.trace.quotient ≤ d.trace.kindSwizzledAddress ∧
      d.loc.xbarRawAddress / 2 ^ c.l2SetBits.toNat = d.trace.quotient / 2 ^ c.l2SetBits.toNat ∧
      d.trace.eccAddress ≤ d.loc.xbarRawAddress ∧
      d.trace.bankAddress / 2 ^ P.bankRotWidth = d.trace.eccAddress / 2 ^ P.bankRotWidth ∧
      (locationWords loc).map BitVec.toNat =
        [d.loc.partitionId, d.loc.subPartitionId, d.loc.rankId, d.loc.bankId, d.loc.rowId,
         d.loc.columnId, d.loc.sliceId, d.loc.l2Set, d.loc.l2Tag, d.loc.l2Sector, d.loc.l2BankId,
         d.loc.xbarRawAddress] ∧
      (traceWords loc.xbarRawAddress d.trace).map BitVec.toNat =
        [d.trace.rawAddress, d.trace.kindSwizzledAddress, d.trace.offset, d.trace.quotient,
         d.trace.remainder, d.trace.l2Offset, d.trace.xbarRawAddress, d.trace.eccAddress,
         d.trace.bankAddress, d.trace.rawBankGroup, d.trace.tmp, d.trace.bankHash]

/-- The consistency identity of every successful DECODE response (R176): word w11 is
`(w8 << l2SetBits) | w7`, for every parameter set and engine, also for a cache fold that breaks law
R139 (R247); and so the values that the pipeline computes. -/
def Obligations.XbarIsTagAndSet : Prop :=
  (∀ (P : Params) (e : Engine) (trace : Bool) (a : Word) (kind : Option SurfaceKind)
      (page : Option PageSizeClass) (l : PhysicalLocation),
      answersOk (decodeReply P e trace a kind page) (locationWords l) →
      l.xbarRawAddress.toNat = (l.l2Tag.toNat <<< e.cfg.l2SetBits.toNat) ||| l.l2Set.toNat) ∧
    ∀ (P : Params) (pol : Policy) (ks : KsEntry) (c : Configuration) (a : Word) (k : SurfaceKind),
      let l := (decodePipeline P pol ks c a k).loc
      l.xbarRawAddress = (l.l2Tag <<< c.l2SetBits.toNat) ||| l.l2Set

/-- With one partition every successful DECODE gives `partitionId = 0`, and no value of a DECODE
depends on the partition correction (R177). -/
def Obligations.OnePartitionReadsNoCorrection : Prop :=
  (∀ (P : Params) (e : Engine) (trace : Bool) (a : Word) (kind : Option SurfaceKind)
      (page : Option PageSizeClass) (l : PhysicalLocation), e.cfg.partitionCount.toNat = 1 →
      answersOk (decodeReply P e trace a kind page) (locationWords l) → l.partitionId = 0) ∧
    ∀ (P : Params) (c : Configuration) (pol : Policy) (ks : KsEntry) (a : Word) (k : SurfaceKind)
      (other : Nat → Nat), c.partitionCount.toNat = 1 →
      decodePipeline P { pol with partCorr := other } ks c a k = decodePipeline P pol ks c a k

/-- Two DECODEs of offsets that differ only under `pageMask` give the same twelve values, and trace
values that differ only in t0, t1, t2 and t5, under the granule laws of R136, R138 and R141 (R178, last
point). -/
def Obligations.DecodeReadsGranulesOnly : Prop :=
  ∀ (P : Params) (c : Configuration) (pol : Policy) (ks : KsEntry) (a b : Word) (k : SurfaceKind),
    configOk P c = true → KsLaws c ks →
    (∀ q o o', o / cfgGRAN c = o' / cfgGRAN c → pol.sliceOf q o = pol.sliceOf q o') →
    (∀ q o o', o / cfgGRAN c = o' / cfgGRAN c → pol.subPartOf q o = pol.subPartOf q o') →
    a &&& ~~~pageMaskWord c = b &&& ~~~pageMaskWord c →
    let d := decodePipeline P pol ks c a k
    let d' := decodePipeline P pol ks c b k
    d'.loc = d.loc ∧
      d'.trace = { d.trace with
        rawAddress := d'.trace.rawAddress
        kindSwizzledAddress := d'.trace.kindSwizzledAddress
        offset := d'.trace.offset
        l2Offset := d'.trace.l2Offset }

/-- The trace bit changes no status and no other word: it appends twelve words to an OK response and
nothing to any other (R94, R106). -/
def Obligations.TraceOnlyAppends : Prop :=
  (∀ (P : Params) (e : Engine) (a : Word) (kind : Option SurfaceKind) (page : Option PageSizeClass),
      ∃ t : List Word,
        decodeReply P e true a kind page =
            ⟨(decodeReply P e false a kind page).status,
              (decodeReply P e false a kind page).payload ++ t⟩ ∧
          t.length = if (decodeReply P e false a kind page).status = .ok then 12 else 0) ∧
    ∀ (P : Params) (e : Engine) (l : PhysicalLocation) (kind : Option SurfaceKind)
      (page : Option PageSizeClass) (eccOn : Bool),
      ∃ t : List Word,
        encodeReply P e true l kind page eccOn =
            ⟨(encodeReply P e false l kind page eccOn).status,
              (encodeReply P e false l kind page eccOn).payload ++ t⟩ ∧
          t.length = if (encodeReply P e false l kind page eccOn).status = .ok then 12 else 0

/-! ## Stages -/

/-- The tiled lookup replaces the 5-bit field at `TILE_FIELD_LSB` by its table entry and passes every
other bit; under R143 its inverse undoes it both ways; for the linear kinds both are the identity
(R190 to R192). -/
def Obligations.TileLookupMovesOneField : Prop :=
  ∀ (P : Params) (a : Word),
    (∀ i, i < P.tileFieldLsb ∨ P.tileFieldLsb + 5 ≤ i →
        (tileLookup P a .tiled).getLsbD i = a.getLsbD i) ∧
      (tileLookup P a .tiled).toNat >>> P.tileFieldLsb % 32 =
        (P.kindTileTable (Fin.ofNat 32 (a.toNat >>> P.tileFieldLsb % 32))).val ∧
      (TileLaws P → ∀ k, tileLookupInv P (tileLookup P a k) k = a ∧
        tileLookup P (tileLookupInv P a k) k = a) ∧
      (tileLookup P a .linear = a ∧ tileLookup P a .linearUnswizzled = a ∧
        tileLookupInv P a .linear = a ∧ tileLookupInv P a .linearUnswizzled = a)

/-- The partition split has the ranges and the identity of R210, and the recombination of R214 is its
inverse both ways. -/
def Obligations.PartitionJoinInvertsSplit : Prop :=
  ∀ c : Configuration, 1 ≤ c.partitionInterleaveBytes.toNat → 1 ≤ c.partitionCount.toNat →
    (∀ ksa, (partitionSplit c ksa).1 < c.partitionInterleaveBytes.toNat ∧
        (partitionSplit c ksa).2.2 < c.partitionCount.toNat ∧
        partitionJoin c (partitionSplit c ksa).2.1 (partitionSplit c ksa).2.2
          (partitionSplit c ksa).1 = ksa) ∧
      ∀ q r o, r < c.partitionCount.toNat → o < c.partitionInterleaveBytes.toNat →
        partitionSplit c (partitionJoin c q r o) = (o, q, r)

/-- For each quotient the owning partition is a rotation of the remainder: it stays below `PC`, and
the remainder recovery of R215 is its inverse both ways, so the `PC` chunks of one quotient go to `PC`
different partitions; for a power of two there is no rotation (R211, R212, R215). -/
def Obligations.PartitionOfIsARotation : Prop :=
  ∀ (c : Configuration) (pol : Policy) (q : Nat), 1 ≤ c.partitionCount.toNat →
    ∀ r, r < c.partitionCount.toNat →
      partitionOf c pol r q < c.partitionCount.toNat ∧
        remainderOf c pol r q < c.partitionCount.toNat ∧
        remainderOf c pol (partitionOf c pol r q) q = r ∧
        partitionOf c pol (remainderOf c pol r q) q = r ∧
        ((∃ n, c.partitionCount.toNat = 2 ^ n) → partitionOf c pol r q = r) ∧
        ((¬∃ n, c.partitionCount.toNat = 2 ^ n) →
          partitionOf c pol r q = (r + pol.partCorr q) % c.partitionCount.toNat)

/-- The cache hash and its inverse undo each other, for both ways of combining, under law R139 (R240
to R243). -/
def Obligations.CacheHashInverts : Prop :=
  ∀ (c : Configuration) (pol : Policy), (∀ t, pol.l2Fold t < 2 ^ c.l2SetBits.toNat) →
    (∀ q, (l2Hash c pol q).1 = q / 2 ^ c.l2SetBits.toNat ∧
        (l2Hash c pol q).2 < 2 ^ c.l2SetBits.toNat ∧
        l2Unhash c pol (l2Hash c pol q).1 (l2Hash c pol q).2 = q) ∧
      ∀ t v, v < 2 ^ c.l2SetBits.toNat → l2Hash c pol (l2Unhash c pol t v) = (t, v)

/-- The bank swizzle rotation is undone by its inverse both ways, passes the bits at and above
`BANK_ROT_WIDTH`, moves bit `i` of the low field to bit `(i + R) mod W`, and is the identity when the
flag is 0 or the width is 0 (R264, R275). -/
def Obligations.BankRotateInverts : Prop :=
  ∀ (P : Params) (c : Configuration) (x : Nat),
    bankRotateInv P c (bankRotate P c x) = x ∧ bankRotate P c (bankRotateInv P c x) = x ∧
      bankRotate P c x / 2 ^ P.bankRotWidth = x / 2 ^ P.bankRotWidth ∧
      (c.bankSwizzleEnabled = true → ∀ i, i < P.bankRotWidth →
        (bankRotate P c x).testBit ((i + P.bankRotAmount) % P.bankRotWidth) = x.testBit i) ∧
      (c.bankSwizzleEnabled = false ∨ P.bankRotWidth = 0 → bankRotate P c x = x)

/-- ECC aliasing under the default maps (R263). -/
def Obligations.EccAliasing : Prop :=
  ∀ P : Params, EccDefault P →
    (∀ y, P.eccCompact (P.eccExpand y) = y) ∧
      (∀ x, P.eccExpand (P.eccCompact x) = x ↔ x % 16 ≠ 15) ∧
      (∀ n, P.eccCompact (16 * n + 15) = 15 * n + 15 ∧
        P.eccCompact (16 * (n + 1)) = 15 * n + 15 ∧ P.eccExpand (15 * n + 15) = 16 * (n + 1)) ∧
      EccLaws P

/-- Row and column carry the bank group and the offset but for the bytes under `GRAN` (R271, R274). -/
def Obligations.RowColInverts : Prop :=
  ∀ (P : Params) (c : Configuration) (group offset : Nat), configOk P c = true →
    offset < c.partitionInterleaveBytes.toNat →
    (rowCol c group offset).2 < c.dramPageSizeBytes.toNat / c.columnGranuleSizeBytes.toNat ∧
      rowColInv c (rowCol c group offset).1 (rowCol c group offset).2 =
        (group, offset - offset % c.columnGranuleSizeBytes.toNat)

/-- The bank hash of a fixed term `f` is `f` of the row (R269). That of a table is the exclusive OR of
the elements `T_i` whose bit `baseShift + i` of the row is set, 0 when there is none, and below any
power of two that bounds the table (R270). -/
def Obligations.BankHashFoldsSetBits : Prop :=
  (∀ (f : Nat → Nat) (rowId : Nat), bankHashOf (.fixedTerm f) rowId = f rowId) ∧
    ∀ (baseShift : Nat) (T : List Nat) (rowId : Nat),
      bankHashOf (.tableFold baseShift T) rowId =
          ((List.range T.length).filter fun i => rowId.testBit (baseShift + i)).foldr
            (fun i acc => T.getD i 0 ^^^ acc) 0 ∧
        ∀ n, (∀ t ∈ T, t < 2 ^ n) → bankHashOf (.tableFold baseShift T) rowId < 2 ^ n

/-! ## ENCODE -/

/-- ENCODE completes from every state with a valid engine, an agreeing `eccOn` and a named kind and
page. Where the policy has an entry for them, the answer is written here from the rules of the inverse
stages (R273 to R275, R243, R215, R214, R194, R192): InvalidLocation for a coordinate out of range or
an address of `2^64` or more (R303, R309), else OK with the byte offset and the mode word, and the
trace words when asked (R103, R105); where the kind and page have no entry, ConfigUnsupported (R147).
It is bound to the current engine, and no other state changes (R310, R374). `resolvePolicy` and
`lookupKs` are the entries of R134 and R147: `PolicyIsResolvedPerSlot`. Three points are the model's
choices: the AddMod inverse subtracts `fold % 2^n`, which is R243's own difference wherever law R139
holds (log entry 9, DEDUCED); a kind and page that have an entry under a policy that has not resolved,
which no run reaches, are answered ConfigUnsupported too (log entry 10, DEDUCED); and a trace word of
`2^64` or more, which only parameters that break their laws produce, is the free value that `zext64`
gives (log entry 4, DESIGN CHOICE). -/
def Obligations.EncodeCompletes : Prop :=
  ∀ (tag : Tag) (trace : Bool) (l : PhysicalLocation) (k : SurfaceKind) (p : PageSizeClass)
    (eccOn : Bool) (s : State),
    s.eng.valid = true → eccOn = s.eng.cfg.eccEnabled →
    exec (.encode tag trace l (some k) (some p) eccOn) s = .next
      { s with
        outstanding := s.outstanding ++ [⟨.operation (.encode tag trace l (some k) (some p) eccOn),
          some s.eng,
          match lookupKs Config.params s.eng.cfg p k, resolvePolicy Config.params s.eng.cfg with
          | some ks, some pol =>
            let P := Config.params
            let c := s.eng.cfg
            let nb := c.dramBankCount.toNat
            let ext := c.extBankBits.toNat
            let pib := c.partitionInterleaveBytes.toNat
            let pc := c.partitionCount.toNat
            let n := c.l2SetBits.toNat
            let sw := bankHashOf pol.bankHash l.rowId.toNat
            let tmp := P.bankPermInv nb ext (l.bankId.toNat ^^^ sw % nb) (l.rankId.toNat ^^^ sw / nb)
            let bytes := l.rowId.toNat * c.dramPageSizeBytes.toNat +
              l.columnId.toNat * c.columnGranuleSizeBytes.toNat
            let group := bytes / pib
            let offset := bytes % pib
            let bankAddress := group * (nb * 2 ^ ext) + tmp
            let ecc := bankRotateInv P c bankAddress
            let xbar := if c.eccEnabled then P.eccExpand ecc else ecc
            let fold := pol.l2Fold (xbar / 2 ^ n)
            let low := match pol.l2Combine with
              | .xor => xbar % 2 ^ n ^^^ fold
              | .addMod => (xbar % 2 ^ n + 2 ^ n - fold % 2 ^ n) % 2 ^ n
            let quotient := xbar / 2 ^ n * 2 ^ n ||| low
            let remainder := if isPow2 pc then l.partitionId.toNat
              else (l.partitionId.toNat + pc - pol.partCorr quotient % pc) % pc
            let ksa := (quotient * pc + remainder) * pib + offset
            let raw := ks.hashInv (BitVec.ofNat 64 ksa)
            let byteOffset := match k with
              | .tiled =>
                BitVec.ofNat 64 (insertField raw.toNat P.tileFieldLsb 5
                  (P.kindTileTableInv (Fin.ofNat 32 (raw.toNat >>> P.tileFieldLsb % 32))).val)
              | _ => raw
            if l.partitionId.toNat < pc ∧ l.bankId.toNat < nb ∧ l.rankId.toNat < 2 ^ ext ∧
                l.columnId.toNat < c.dramPageSizeBytes.toNat / c.columnGranuleSizeBytes.toNat ∧
                bankAddress < 2 ^ 64 ∧ xbar < 2 ^ 64 ∧ ksa < 2 ^ 64 then
              ⟨.ok, 0x3#4, tag,
                [byteOffset, modeWord (some k) (some p)] ++
                (if trace then
                  [raw.toNat, ksa, offset, quotient, remainder, offset % P.l2SectorBytes, xbar, ecc,
                   bankAddress, group, tmp, sw].map zext64
                 else [])⟩
            else ⟨.invalidLocation, 0x3#4, tag, []⟩
          | _, _ => ⟨.configUnsupported, 0x3#4, tag, []⟩⟩] }

/-- The status of an ENCODE is the first of checks 2 to 8 of R301 that applies, and OK when none does;
an error has no payload, OK has two words, or fourteen with the trace (R103, R106, R301, R303, R309,
R337). Check 8 compares the three addresses that R304 computes. There the AddMod inverse subtracts
`fold % 2^n`, R243's own difference wherever law R139 holds (the model's choice beyond it: log entry
9, DEDUCED). -/
def Obligations.EncodeStatusFollowsCheckOrder : Prop :=
  ∀ (P : Params) (e : Engine) (trace : Bool) (l : PhysicalLocation) (kind : Option SurfaceKind)
    (page : Option PageSizeClass) (eccOn : Bool), EngineOk P e →
    let r := encodeReply P e trace l kind page eccOn
    (if e.valid = false then r.status = .configUnsupported
     else if eccOn ≠ e.cfg.eccEnabled then r.status = .inconsistentEccState
     else match kind, page with
      | none, _ => r.status = .invalidSurfaceKind
      | some _, none => r.status = .invalidPageSize
      | some k, some p =>
        if (resolve P (·.ksHash e.cfg.partitionCount.toNat p k) e.cfg.generation.toNat) = none
        then r.status = .configUnsupported
        else if ¬(l.partitionId.toNat < e.cfg.partitionCount.toNat ∧
            l.bankId.toNat < e.cfg.dramBankCount.toNat ∧
            l.rankId.toNat < 2 ^ e.cfg.extBankBits.toNat ∧
            l.columnId.toNat <
              e.cfg.dramPageSizeBytes.toNat / e.cfg.columnGranuleSizeBytes.toNat)
        then r.status = .invalidLocation
        else ∃ pol, resolvePolicy P e.cfg = some pol ∧
          let c := e.cfg
          let nb := c.dramBankCount.toNat
          let ext := c.extBankBits.toNat
          let pib := c.partitionInterleaveBytes.toNat
          let pc := c.partitionCount.toNat
          let n := c.l2SetBits.toNat
          let sw := bankHashOf pol.bankHash l.rowId.toNat
          let tmp := P.bankPermInv nb ext (l.bankId.toNat ^^^ sw % nb) (l.rankId.toNat ^^^ sw / nb)
          let bytes := l.rowId.toNat * c.dramPageSizeBytes.toNat +
            l.columnId.toNat * c.columnGranuleSizeBytes.toNat
          let bankAddress := bytes / pib * (nb * 2 ^ ext) + tmp
          let ecc := bankRotateInv P c bankAddress
          let xbar := if c.eccEnabled then P.eccExpand ecc else ecc
          let fold := pol.l2Fold (xbar / 2 ^ n)
          let low := match pol.l2Combine with
            | .xor => xbar % 2 ^ n ^^^ fold
            | .addMod => (xbar % 2 ^ n + 2 ^ n - fold % 2 ^ n) % 2 ^ n
          let quotient := xbar / 2 ^ n * 2 ^ n ||| low
          let remainder := if isPow2 pc then l.partitionId.toNat
            else (l.partitionId.toNat + pc - pol.partCorr quotient % pc) % pc
          let ksa := (quotient * pc + remainder) * pib + bytes % pib
          r.status =
            if 2 ^ 64 ≤ bankAddress ∨ 2 ^ 64 ≤ xbar ∨ 2 ^ 64 ≤ ksa then .invalidLocation else .ok) ∧
      r.payload.length = (if r.status = .ok then (if trace then 14 else 2) else 0)

/-- The seven words that ENCODE ignores change nothing of its answer (R302). -/
def Obligations.EncodeIgnoresSevenWords : Prop :=
  ∀ (P : Params) (e : Engine) (trace : Bool) (l : PhysicalLocation) (kind : Option SurfaceKind)
    (page : Option PageSizeClass) (eccOn : Bool) (w1 w6 w7 w8 w9 w10 w11 : Word),
    encodeReply P e trace
        { l with subPartitionId := w1, sliceId := w6, l2Set := w7, l2Tag := w8, l2Sector := w9,
                 l2BankId := w10, xbarRawAddress := w11 } kind page eccOn =
      encodeReply P e trace l kind page eccOn

/-- Every byte offset that ENCODE answers is aligned to the column granule (R312), under the laws R136
and R143. -/
def Obligations.EncodeResultIsGranuleAligned : Prop :=
  ∀ (P : Params) (c : Configuration) (trace : Bool) (l : PhysicalLocation) (k : SurfaceKind)
    (p : PageSizeClass) (eccOn : Bool) (a : Word),
    configOk P c = true → TileLaws P → (∀ ks, lookupKs P c p k = some ks → KsLaws c ks) →
    answersOk (encodeReply P ⟨true, c⟩ trace l (some k) (some p) eccOn)
      [a, modeWord (some k) (some p)] →
    a &&& pageMaskWord c = 0

/-- The round trip (R313): under the laws and the default ECC maps, ENCODE of what DECODE of `a`
answers is `a & ~pageMask`; in the ECC alias case it is InvalidLocation, or an offset whose DECODE
has the same six coordinates and the next `xbarRawAddress`. -/
def Obligations.EncodeUndoesDecode : Prop :=
  ∀ (P : Params) (c : Configuration) (a : Word) (k : SurfaceKind) (p : PageSizeClass)
    (tr tr' : Bool) (loc : PhysicalLocation),
    LawsAt P c → EccDefault P → configOk P c = true → (lookupKs P c p k).isSome = true →
    answersOk (decodeReply P ⟨true, c⟩ tr a (some k) (some p)) (locationWords loc) →
    let r := encodeReply P ⟨true, c⟩ tr' loc (some k) (some p) c.eccEnabled
    if c.eccEnabled = true ∧ loc.xbarRawAddress.toNat % 16 = 15 then
      r.status = .invalidLocation ∨
        ∃ (a' : Word) (loc' : PhysicalLocation),
          answersOk r [a', modeWord (some k) (some p)] ∧
          answersOk (decodeReply P ⟨true, c⟩ tr a' (some k) (some p)) (locationWords loc') ∧
          loc'.partitionId = loc.partitionId ∧ loc'.subPartitionId = loc.subPartitionId ∧
          loc'.rankId = loc.rankId ∧ loc'.bankId = loc.bankId ∧ loc'.rowId = loc.rowId ∧
          loc'.columnId = loc.columnId ∧
          loc'.xbarRawAddress.toNat = loc.xbarRawAddress.toNat + 1
    else answersOk r [a &&& ~~~pageMaskWord c, modeWord (some k) (some p)]

/-- The inverse round trip (R314): a location that some DECODE answers is encoded to an offset whose
DECODE answers exactly that location, all twelve words, outside the ECC alias case. -/
def Obligations.DecodeUndoesEncode : Prop :=
  ∀ (P : Params) (c : Configuration) (k : SurfaceKind) (p : PageSizeClass) (tr tr' : Bool)
    (loc : PhysicalLocation),
    LawsAt P c → EccDefault P → configOk P c = true → (lookupKs P c p k).isSome = true →
    (∃ (a : Word) (t : Bool),
      answersOk (decodeReply P ⟨true, c⟩ t a (some k) (some p)) (locationWords loc)) →
    (c.eccEnabled = false ∨ loc.xbarRawAddress.toNat % 16 ≠ 15) →
    ∃ a' : Word,
      answersOk (encodeReply P ⟨true, c⟩ tr' loc (some k) (some p) c.eccEnabled)
          [a', modeWord (some k) (some p)] ∧
        answersOk (decodeReply P ⟨true, c⟩ tr a' (some k) (some p)) (locationWords loc)

/-- `burstSizeBytes` and `beatSizeBytes` are read by no DECODE and no ENCODE (R40, R41). -/
def Obligations.BurstAndBeatAreNotRead : Prop :=
  ∀ (P : Params) (v trace : Bool) (c : Configuration) (burst beat : Word),
    let c' := { c with burstSizeBytes := burst, beatSizeBytes := beat }
    (∀ a kind page, decodeReply P ⟨v, c'⟩ trace a kind page = decodeReply P ⟨v, c⟩ trace a kind page) ∧
      ∀ l kind page eccOn,
        encodeReply P ⟨v, c'⟩ trace l kind page eccOn = encodeReply P ⟨v, c⟩ trace l kind page eccOn

/-! ## The block -/

/-- A step that takes a request of legal form runs its operation, on the state in which the request
has left the channel; with nothing outstanding, the oldest request is what the next step takes (R374).
`tick` is the model's own counter (log entry 3). -/
def Obligations.StepRunsDecodedOperation : Prop :=
  (∀ (s : State) (r : Request) (rest : List Input) (i : Instr),
      nextEvent s = .accept r rest → decodeRequest r = .ok i →
      s.inputs = .request r :: rest ∧
        step s = exec i { s with inputs := rest, tick := s.tick + 1 }) ∧
    ∀ (s : State) (r : Request) (rest : List Input),
      s.outstanding = [] → s.inputs = .request r :: rest → nextEvent s = .accept r rest

/-- No step stops: every error is a status in a response (R330, R339). -/
def Obligations.EveryStepGoesOn : Prop :=
  ∀ s : State, Safe (step s)

/-- A failed request changes nothing of the engine, but for a CONFIGURE answered ConfigUnsupported,
which makes it invalid (R330): for every operation, the entry it leaves and the engine after it. `tick`
is the model's own counter (log entry 3). -/
def Obligations.FailedRequestKeepsEngine : Prop :=
  ∀ (i : Instr) (s : State), ∃ (t : State) (e : Entry),
    exec i s = .next t ∧ t.outstanding = s.outstanding ++ [e] ∧ t.inputs = s.inputs ∧
      t.responses = s.responses ∧ t.tick = s.tick ∧ e.what = .operation i ∧
      e.response.op = opcodeOf i ∧ e.response.tag = tagOfInstr i ∧
      (e.response.status ≠ .ok →
        e.response.payload = [] ∧
        match i with
        | .configure _ _ _ =>
          if e.response.status = .configUnsupported then t.eng.valid = false else t.eng = s.eng
        | _ => t.eng = s.eng)

/-- The state after reset (R55, R370): no engine and nothing outstanding. The zero in each
configuration register is the model's choice (log entry 1) and is not claimed here. -/
def Obligations.ResetLeavesNoEngine : Prop :=
  State.reset.eng.valid = false ∧ State.reset.outstanding = [] ∧ observed State.reset.eng = none

/-- The reset event: the engine is not valid (R370), and every unanswered request is discarded without
a response, whatever was outstanding (R371). A step at which the reset comes is that event. Two points
are the model's choice and no rule of the spec (log entry 7, DESIGN CHOICE): a reset comes as the
oldest element of the request channel, and it leaves the inputs behind it and the responses already
delivered as they are. -/
def Obligations.ResetDiscardsOutstanding : Prop :=
  (∀ (s : State) (rest : List Input), nextEvent s = .reset rest →
      s.inputs = .reset :: rest ∧ step s = .next (platformReset s rest)) ∧
    ∀ (s : State) (rest : List Input),
      (platformReset s rest).eng.valid = false ∧ (platformReset s rest).outstanding = [] ∧
        (platformReset s rest).responses = s.responses ∧ (platformReset s rest).inputs = rest

/-- A delivery hands one outstanding response to the host and changes nothing else of the block (R76,
R376). `tick` is the model's own counter (log entry 3). -/
def Obligations.DeliveryAnswersOneRequest : Prop :=
  ∀ (s : State) (k : Nat), nextEvent s = .answer k →
    ∃ e, s.outstanding[k]? = some e ∧
      step s = .next
        { s with
          outstanding := s.outstanding.eraseIdx k
          responses := s.responses ++ [e.response]
          tick := s.tick + 1 }

/-- Any order is possible (R80, R376): whichever request is outstanding, some schedule delivers it
next. With fewer than `MAX_OUTSTANDING` requests outstanding (R345, R379) some schedule takes a
request that has been sent first; and a reset that comes, however many are outstanding (R380). That
requests and resets come in one list is the model's choice (log entry 7, DESIGN CHOICE). -/
def Obligations.AnyActionMayComeNext : Prop :=
  ∀ (P : Params) (s : State),
    (∀ k, k < s.outstanding.length → ∃ sched, nextEventOf P sched s = .answer k) ∧
      (∀ r rest, s.inputs = .request r :: rest → s.outstanding.length < P.maxOutstanding →
        ∃ sched, nextEventOf P sched s = .accept r rest) ∧
      ∀ rest, s.inputs = .reset :: rest → ∃ sched, nextEventOf P sched s = .reset rest

/-- Back-pressure (R379): with `MAX_OUTSTANDING` requests outstanding the block takes no request; it
delivers a response, whatever the schedule. -/
def Obligations.FullBlockTakesNoRequest : Prop :=
  (∀ (P : Params) (sched : Nat → Nat) (s : State) (r : Request) (rest : List Input),
      s.inputs = .request r :: rest → P.maxOutstanding ≤ s.outstanding.length →
      ∃ k, k < s.outstanding.length ∧ nextEventOf P sched s = .answer k) ∧
    ∀ (s : State) (r : Request) (rest : List Input),
      s.inputs = .request r :: rest → Config.params.maxOutstanding ≤ s.outstanding.length →
      ∃ t, step s = .next t ∧ t.inputs = s.inputs ∧ t.eng = s.eng ∧
        t.outstanding.length + 1 = s.outstanding.length ∧
        t.responses.length = s.responses.length + 1

/-- A DECODE or ENCODE is bound to the engine at its acceptance, and its answer is the one that engine
gives; a CONFIGURE binds nothing (R374). That the response is computed at the acceptance and kept in
the entry is the model's inference (log entry 5, DEDUCED). -/
def Obligations.AcceptanceBindsCurrentEngine : Prop :=
  ∀ (s : State) (r : Request) (rest : List Input) (i : Instr),
    nextEvent s = .accept r rest → decodeRequest r = .ok i →
    ∃ t, step s = .next t ∧
      t.outstanding = s.outstanding ++
        [⟨.operation i, if bindsEngine (.operation i) then some s.eng else none,
          responseTo (.operation i) (replyFor Config.params (.operation i) (some s.eng))⟩]

/-- The invariant holds after reset. -/
def Obligations.ResetMeetsInvariant : Prop := Inv State.reset

/-- Every step keeps the invariant (R46, R50, R51, R374, R379): a valid engine holds a configuration
that CONFIGURE accepts, no more than `MAX_OUTSTANDING` requests are outstanding, and each waits with
the answer of the engine it was bound to, whatever CONFIGUREs and resets have come since. That
the answer is kept in the entry is the model's inference (log entry 5, DEDUCED). -/
def Obligations.StepKeepsInvariant : Prop :=
  ∀ s t : State, Inv s → step s = .next t → Inv t

/-- Every run ends (R379, R381): from every state the block is quiescent after `pendingWork` steps,
whatever the schedule, so every accepted request has been answered or discarded by a reset. -/
def Obligations.EveryRunSettles : Prop :=
  ∀ s : State, ∃ t : State,
    Sys2Proof.core.run (pendingWork s) s = .next t ∧ quiescent t = true ∧ step t = .next t

/-- A run's answers do not depend on the order of its steps (R79, R80, R81, R374, R376, R381): from
every state with nothing outstanding, a run of any requests delivers exactly one response to each, and
these are, in some order, the responses of the requests served one after another; so is the engine it
leaves. -/
def Obligations.RunAnswersAsServedInOrder : Prop :=
  ∀ (s : State) (rs : List Request), s.outstanding = [] → s.inputs = rs.map .request →
    ∃ (t : State) (out : List Response),
      Sys2Proof.core.run (pendingWork s) s = .next t ∧ quiescent t = true ∧
      t.responses = s.responses ++ out ∧
      out.Perm (serveAll Config.params (observed s.eng) rs).2 ∧
      observed t.eng = (serveAll Config.params (observed s.eng) rs).1

/-- From reset, a CONFIGURE of `c` that is answered OK leads, once its response has come, to
`CONFIGURED(c)` (R382); one that is not leaves no engine. `tick` is the model's own counter (log entry
3), of which nothing is claimed. -/
def Obligations.ConfigureReachesConfigured : Prop :=
  ∀ (tag : Tag) (c : Configuration), ∃ t : State,
    Sys2Proof.core.run 2
        { State.reset with inputs := [.request (encodeRequest (.configure tag false c))] } = .next t ∧
      if configOk Config.params c then
        t = { configured c with responses := [⟨.ok, 0x1#4, tag, []⟩], tick := t.tick }
      else
        t.responses = [⟨.configUnsupported, 0x1#4, tag, []⟩] ∧ observed t.eng = none ∧
          quiescent t = true

/-! ## Beside the statements above -/

/-- `eng.policy` is, slot by slot, the entry that `resolve` gives for `cfg.generation` and the key
`(partitionCount, xbarSliceCount, l2SetCount, dramBankCount)`, and there is one exactly when all six
slots have an entry (R49, R131, R133, R134); the kind entry of a request is the one it gives for
`(partitionCount, pageSizeClass, surfaceKind)` (R147). `ResolveTakesFirstEntry` says what `resolve`
gives. -/
def Obligations.PolicyIsResolvedPerSlot : Prop :=
  ∀ (P : Params) (c : Configuration),
    let g := c.generation.toNat
    let key : PolicyKey :=
      { partitionCount := c.partitionCount.toNat, xbarSliceCount := c.xbarSliceCount.toNat,
        l2SetCount := c.l2SetCount.toNat, dramBankCount := c.dramBankCount.toNat }
    (∀ pol : Policy, resolvePolicy P c = some pol ↔
      resolve P (·.partCorr key) g = some pol.partCorr ∧
        resolve P (·.sliceOf key) g = some pol.sliceOf ∧
        resolve P (·.l2Fold key) g = some pol.l2Fold ∧
        resolve P (·.l2Combine key) g = some pol.l2Combine ∧
        resolve P (·.bankHash key) g = some pol.bankHash ∧
        resolve P (·.subPartOf key) g = some pol.subPartOf) ∧
      ∀ (p : PageSizeClass) (k : SurfaceKind),
        lookupKs P c p k = resolve P (·.ksHash c.partitionCount.toNat p k) g

/-- The bytes of a response: four for its header and eight for each payload word, byte `k` of each
holding its bits `8k+7 .. 8k` (R72, R90). -/
def Obligations.ResponseBytesAreLittleEndian : Prop :=
  ∀ r : Response, carriesWords (responseBytes r) (responseHeader r) r.payload
end

