-- ==== Sys2Proof/Laws/Numbers.lean ====
section
/-! SUPPORT. The operators of R14 and R15 in the terms of core arithmetic. -/

namespace Sys2Proof.Machine

theorem isPow2_iff (n : Nat) : isPow2 n = true ↔ ∃ k, n = 2 ^ k := by
  constructor
  · intro h
    simp only [isPow2, Bool.and_eq_true, bne_iff_ne, ne_eq, beq_iff_eq] at h
    exact (Nat.and_sub_one_eq_zero_iff_isPowerOfTwo h.1).1 h.2
  · rintro ⟨k, rfl⟩
    simp only [isPow2, Bool.and_eq_true, bne_iff_ne, ne_eq, beq_iff_eq]
    exact ⟨by positivity,
      (Nat.and_sub_one_eq_zero_iff_isPowerOfTwo (by positivity)).2 ⟨k, rfl⟩⟩

theorem cfgG_eq (c : Configuration) : cfgG c = cfgNB c * 2 ^ cfgExt c := Nat.shiftLeft_eq _ _

theorem zext64_of_lt {v : Nat} (h : v < 2 ^ 64) : zext64 v = BitVec.ofNat 64 v := if_pos h

theorem zext64_toNat {v : Nat} (h : v < 2 ^ 64) : (zext64 v).toNat = v := by
  rw [zext64_of_lt h, BitVec.toNat_ofNat, Nat.mod_eq_of_lt h]

/-- A field placed above `n` low bits adds to them. -/
theorem shiftLeft_or_of_lt (a n b : Nat) (h : b < 2 ^ n) : (a <<< n) ||| b = a * 2 ^ n + b := by
  rw [← Nat.shiftLeft_add_eq_or_of_lt h, Nat.shiftLeft_eq]

/-- The word of a crossbar address is the words of its two parts, combined, where the tag has room
below the set. -/
theorem xbarWord_toNat {s t : Nat} (v : Nat) (h : t <<< s < 2 ^ 64) :
    (xbarWord s t v).toNat = ((zext64 t).toNat <<< s) ||| (zext64 v).toNat := by
  have ht : t < 2 ^ 64 := by
    refine lt_of_le_of_lt ?_ h
    rw [Nat.shiftLeft_eq]
    exact Nat.le_mul_of_pos_right _ (Nat.two_pow_pos _)
  rw [xbarWord, BitVec.toNat_or, BitVec.toNat_shiftLeft, zext64_toNat ht, Nat.mod_eq_of_lt h]

/-- It is that of its value, where the value fits. -/
theorem xbarWord_of_lt {s t v : Nat} (h : (t <<< s) ||| v < 2 ^ 64) :
    xbarWord s t v = zext64 ((t <<< s) ||| v) := by
  have ht : t <<< s < 2 ^ 64 := lt_of_le_of_lt Nat.left_le_or h
  have ht' : t ≤ t <<< s := by
    rw [Nat.shiftLeft_eq]
    exact Nat.le_mul_of_pos_right _ (Nat.two_pow_pos _)
  apply BitVec.eq_of_toNat_eq
  rw [xbarWord_toNat v ht, zext64_toNat h, zext64_toNat (by omega),
    zext64_toNat (lt_of_le_of_lt Nat.right_le_or h)]

theorem testBit_andNot (a m i : Nat) : (andNot a m).testBit i = (a.testBit i && !m.testBit i) := by
  simp only [andNot, Nat.testBit_xor, Nat.testBit_and]
  cases a.testBit i <;> cases m.testBit i <;> rfl

/-- Bit by bit, `insert` takes the field's bits inside it and the value's bits elsewhere. -/
theorem testBit_insertField (v lo w f i : Nat) (hf : f < 2 ^ w) :
    (insertField v lo w f).testBit i =
      if lo ≤ i ∧ i < lo + w then f.testBit (i - lo) else v.testBit i := by
  simp only [insertField, Nat.testBit_or, testBit_andNot, Nat.testBit_shiftLeft,
    Nat.testBit_two_pow_sub_one]
  by_cases h1 : lo ≤ i
  · by_cases h2 : i < lo + w
    · simp [h1, h2, show i - lo < w by omega]
    · have h3 : f.testBit (i - lo) = false :=
        Nat.testBit_lt_two_pow (lt_of_lt_of_le hf (Nat.pow_le_pow_right (by omega) (by omega)))
      simp [h1, h2, h3, show ¬ i - lo < w by omega]
  · simp [h1]

theorem bitField_eq (v hi lo : Nat) : bitField v hi lo = v / 2 ^ lo % 2 ^ (hi - lo + 1) := by
  rw [bitField, Nat.shiftRight_eq_div_pow]

theorem configOk_split (P : Params) (c : Configuration) (h : configOk P c = true) :
    countsOk c = true ∧ setBitsOk c = true ∧ bankGroupOk c = true ∧ pageOk c = true ∧
      interleaveOk c = true ∧ reachOk c = true ∧ granuleFits P c = true ∧
      generationOk P c = true := by
  simp only [configOk, Bool.and_eq_true] at h
  tauto

/-- A configuration that CONFIGURE accepts has a resolved policy (R132 item 11). -/
theorem resolvePolicy_isSome {P : Params} {c : Configuration} (h : configOk P c = true) :
    ∃ pol, resolvePolicy P c = some pol := by
  have := (configOk_split P c h).2.2.2.2.2.2.2
  simp only [generationOk, Bool.and_eq_true] at this
  exact Option.isSome_iff_exists.1 this.2

end Sys2Proof.Machine
end

