-- ==== Sys2Proof/Laws/State.lean ====
section
/-! SUPPORT. What each state update leaves in each field. -/

namespace Sys2Proof.Machine

variable (what : Accepted) (bound : Option Engine) (reply : Reply) (s : State)
  (rest : List Input) (r : Request) (why : IllegalForm)

@[simp] theorem accept_eng : (accept what bound reply s).eng = s.eng := rfl
@[simp] theorem accept_inputs : (accept what bound reply s).inputs = s.inputs := rfl
@[simp] theorem accept_responses : (accept what bound reply s).responses = s.responses := rfl
@[simp] theorem accept_tick : (accept what bound reply s).tick = s.tick := rfl
@[simp] theorem accept_outstanding : (accept what bound reply s).outstanding =
    s.outstanding ++ [⟨what, bound, responseTo what reply⟩] := rfl

@[simp] theorem acceptIllegal_eng : (acceptIllegal r why s).eng = s.eng := rfl
@[simp] theorem acceptIllegal_inputs : (acceptIllegal r why s).inputs = s.inputs := rfl
@[simp] theorem acceptIllegal_responses : (acceptIllegal r why s).responses = s.responses := rfl
@[simp] theorem acceptIllegal_tick : (acceptIllegal r why s).tick = s.tick := rfl
@[simp] theorem acceptIllegal_outstanding : (acceptIllegal r why s).outstanding =
    s.outstanding ++ [⟨.illegal (opOf r.header) (tagOf r.header) why, none,
      ⟨.illegalRequest, opOf r.header, tagOf r.header, []⟩⟩] := rfl

@[simp] theorem fetched_eng : (fetched s rest).eng = s.eng := rfl
@[simp] theorem fetched_inputs : (fetched s rest).inputs = rest := rfl
@[simp] theorem fetched_responses : (fetched s rest).responses = s.responses := rfl
@[simp] theorem fetched_tick : (fetched s rest).tick = s.tick + 1 := rfl
@[simp] theorem fetched_outstanding : (fetched s rest).outstanding = s.outstanding := rfl

@[simp] theorem platformReset_eng : (platformReset s rest).eng = Engine.afterReset := rfl
@[simp] theorem platformReset_inputs : (platformReset s rest).inputs = rest := rfl
@[simp] theorem platformReset_responses : (platformReset s rest).responses = s.responses := rfl
@[simp] theorem platformReset_tick : (platformReset s rest).tick = s.tick + 1 := rfl
@[simp] theorem platformReset_outstanding : (platformReset s rest).outstanding = [] := rfl

variable (nbits w : Nat)

@[simp] theorem withFetchWord_eng : (s.withFetchWord nbits w).eng = s.eng := rfl
@[simp] theorem withFetchWord_inputs : (s.withFetchWord nbits w).inputs =
    .request (requestOfTableWord nbits w) :: s.inputs := rfl
@[simp] theorem withFetchWord_responses : (s.withFetchWord nbits w).responses = s.responses := rfl
@[simp] theorem withFetchWord_tick : (s.withFetchWord nbits w).tick = s.tick := rfl
@[simp] theorem withFetchWord_outstanding : (s.withFetchWord nbits w).outstanding = [] := rfl

end Sys2Proof.Machine
end

