-- ==== Sys2Proof/Laws/Ops.lean ====
section
/-! SUPPORT. Once for each shared operation: everything it can do. -/

namespace Sys2Proof.Machine

@[simp] theorem raise_status (st : Status) : (raise st).status = st := rfl
@[simp] theorem raise_payload (st : Status) : (raise st).payload = [] := rfl
@[simp] theorem respond_status (st : Status) (ws : List Word) : (respond st ws).status = st := rfl
@[simp] theorem respond_payload (st : Status) (ws : List Word) : (respond st ws).payload = ws := rfl

@[simp] theorem responseTo_status (what : Accepted) (r : Reply) :
    (responseTo what r).status = r.status := rfl
@[simp] theorem responseTo_payload (what : Accepted) (r : Reply) :
    (responseTo what r).payload = r.payload := rfl
@[simp] theorem responseTo_op (what : Accepted) (r : Reply) :
    (responseTo what r).op = acceptedOp what := rfl
@[simp] theorem responseTo_tag (what : Accepted) (r : Reply) :
    (responseTo what r).tag = acceptedTag what := rfl

/-- Delivery of an entry that is there. -/
theorem answer_of_getElem? {k : Nat} {s : State} {e : Entry} (h : s.outstanding[k]? = some e) :
    answer k s =
      { s with outstanding := s.outstanding.eraseIdx k, responses := s.responses ++ [e.response],
               tick := s.tick + 1 } := by
  simp [answer, h]

theorem takeInput_accept {i : Input} {rest rest' : List Input} {r : Request}
    (h : takeInput i rest = .accept r rest') : i = .request r ∧ rest = rest' := by
  cases i <;> simp_all [takeInput]

theorem takeInput_reset {i : Input} {rest rest' : List Input}
    (h : takeInput i rest = .reset rest') : i = .reset ∧ rest = rest' := by
  cases i <;> simp_all [takeInput]

theorem takeInput_cases (i : Input) (rest : List Input) :
    (∃ r, i = .request r ∧ takeInput i rest = .accept r rest) ∨
      (i = .reset ∧ takeInput i rest = .reset rest) := by
  cases i <;> simp [takeInput]

/-- Everything the choice of the next event can be, and what each choice says of the state. -/
theorem nextEventOf_cases (P : Params) (sched : Nat → Nat) (s : State) :
    (nextEventOf P sched s = .idle ∧ s.outstanding = [] ∧ s.inputs = []) ∨
      (∃ k, nextEventOf P sched s = .answer k ∧ k < s.outstanding.length) ∨
      ∃ i rest, nextEventOf P sched s = takeInput i rest ∧ s.inputs = i :: rest ∧
        canTake P s.outstanding i = true := by
  unfold nextEventOf
  split
  · rename_i ho hi; exact .inl ⟨rfl, ho, hi⟩
  · rename_i i rest ho hi
    refine .inr (.inr ⟨i, rest, rfl, hi, ?_⟩)
    cases i <;> simp [canTake, ho, P.maxOutstanding_pos, Nat.lt_of_lt_of_le Nat.zero_lt_one]
  · rename_i e es ho hi
    exact .inr (.inl ⟨_, rfl, by rw [ho]; exact Nat.mod_lt _ (by simp)⟩)
  · rename_i e es i rest ho hi
    split
    · rename_i hc
      simp only
      split
      · exact .inr (.inr ⟨i, rest, rfl, hi, by rw [ho]; exact hc⟩)
      · rename_i hk
        refine .inr (.inl ⟨_, rfl, ?_⟩)
        have := Nat.mod_lt (sched s.tick) (y := (e :: es).length + 1) (by simp)
        rw [ho]; omega
    · exact .inr (.inl ⟨_, rfl, by rw [ho]; exact Nat.mod_lt _ (by simp)⟩)

/-- What taking a request says of the state. -/
theorem nextEvent_accept {s : State} {r : Request} {rest : List Input}
    (h : nextEvent s = .accept r rest) :
    s.inputs = .request r :: rest ∧ s.outstanding.length < Config.params.maxOutstanding := by
  rcases nextEventOf_cases Config.params Config.schedule s with ⟨h', -⟩ | ⟨k, h', -⟩ |
    ⟨i, rest', h', hi, hc⟩
  · simp [nextEvent, h'] at h
  · simp [nextEvent, h'] at h
  · rw [nextEvent, h'] at h
    obtain ⟨rfl, rfl⟩ := takeInput_accept h
    exact ⟨hi, by simpa [canTake] using hc⟩

/-- What a reset event says of the state. -/
theorem nextEvent_reset {s : State} {rest : List Input} (h : nextEvent s = .reset rest) :
    s.inputs = .reset :: rest := by
  rcases nextEventOf_cases Config.params Config.schedule s with ⟨h', -⟩ | ⟨k, h', -⟩ |
    ⟨i, rest', h', hi, -⟩
  · simp [nextEvent, h'] at h
  · simp [nextEvent, h'] at h
  · rw [nextEvent, h'] at h
    obtain ⟨rfl, rfl⟩ := takeInput_reset h
    exact hi

/-- What a delivery says of the state. -/
theorem nextEvent_answer {s : State} {k : Nat} (h : nextEvent s = .answer k) :
    k < s.outstanding.length := by
  rcases nextEventOf_cases Config.params Config.schedule s with ⟨h', -⟩ | ⟨k', h', hk⟩ |
    ⟨i, rest', h', -, -⟩
  · simp [nextEvent, h'] at h
  · rw [nextEvent, h'] at h; cases h; exact hk
  · rw [nextEvent, h'] at h
    rcases takeInput_cases i rest' with ⟨r, -, h2⟩ | ⟨-, h2⟩ <;> simp [h2] at h

theorem exec_configure (tag : Tag) (trace : Bool) (c : Configuration) (s : State) :
    exec (.configure tag trace c) s = .next (accept (.operation (.configure tag trace c)) none
      (configureReply Config.params trace c)
      { s with eng :=
          configureEngine Config.params trace c (Config.unspecifiedCfg s.tick) s.eng }) := rfl

theorem exec_decode (tag : Tag) (trace : Bool) (a : Word) (kind : Option SurfaceKind)
    (page : Option PageSizeClass) (s : State) :
    exec (.decode tag trace a kind page) s =
      .next (accept (.operation (.decode tag trace a kind page)) (some s.eng)
        (decodeReply Config.params s.eng trace a kind page) s) := rfl

theorem exec_encode (tag : Tag) (trace : Bool) (l : PhysicalLocation) (kind : Option SurfaceKind)
    (page : Option PageSizeClass) (eccOn : Bool) (s : State) :
    exec (.encode tag trace l kind page eccOn) s =
      .next (accept (.operation (.encode tag trace l kind page eccOn)) (some s.eng)
        (encodeReply Config.params s.eng trace l kind page eccOn) s) := rfl

/-- Everything a step can do. -/
theorem step_cases (s : State) :
    (s.outstanding = [] ∧ s.inputs = [] ∧ step s = .next s) ∨
      (∃ k e, nextEvent s = .answer k ∧ s.outstanding[k]? = some e ∧ step s = .next
        { s with outstanding := s.outstanding.eraseIdx k, responses := s.responses ++ [e.response],
                 tick := s.tick + 1 }) ∨
      (∃ rest, s.inputs = .reset :: rest ∧ step s = .next (platformReset s rest)) ∨
      (∃ r rest why, nextEvent s = .accept r rest ∧ s.inputs = .request r :: rest ∧
        s.outstanding.length < Config.params.maxOutstanding ∧ decodeRequest r = .error why ∧
        step s = .next (acceptIllegal r why (fetched s rest))) ∨
      ∃ r rest i, nextEvent s = .accept r rest ∧ s.inputs = .request r :: rest ∧
        s.outstanding.length < Config.params.maxOutstanding ∧ decodeRequest r = .ok i ∧
        step s = exec i (fetched s rest) := by
  rcases h : nextEvent s with _ | k | rest | ⟨r, rest⟩
  · rcases nextEventOf_cases Config.params Config.schedule s with ⟨-, ho, hi⟩ | ⟨k, h', -⟩ |
      ⟨i, rest, h', -, -⟩
    · exact .inl ⟨ho, hi, by simp [step, h]⟩
    · simp [nextEvent, h'] at h
    · rw [nextEvent, h'] at h
      rcases takeInput_cases i rest with ⟨r, -, h2⟩ | ⟨-, h2⟩ <;> simp [h2] at h
  · have hk := nextEvent_answer h
    refine .inr (.inl ⟨k, s.outstanding[k], rfl, by simp [hk], ?_⟩)
    simp only [step, h]
    rw [answer_of_getElem? (e := s.outstanding[k]) (by simp [hk])]
  · exact .inr (.inr (.inl ⟨rest, nextEvent_reset h, by simp [step, h]⟩))
  · obtain ⟨hi, hl⟩ := nextEvent_accept h
    rcases hd : decodeRequest r with why | i
    · exact .inr (.inr (.inr (.inl ⟨r, rest, why, rfl, hi, hl, hd, by simp [step, h, hd]⟩)))
    · exact .inr (.inr (.inr (.inr ⟨r, rest, i, rfl, hi, hl, hd, by simp [step, h, hd]⟩)))

theorem run_succ (M : Host.Core) (n : Nat) (s t : M.State) (h : M.step s = .next t) :
    M.run (n + 1) s = M.run n t := by
  simp [Host.Core.run, h]

/-- A run of the block goes on from the state its first step leaves. -/
theorem core_run_succ (n : Nat) (s t : State) (h : step s = .next t) :
    Sys2Proof.core.run (n + 1) s = Sys2Proof.core.run n t :=
  run_succ Sys2Proof.core n s t h

/-- Everything an operation leaves: its entry, and the engine, which only CONFIGURE changes. -/
theorem exec_next (i : Instr) (s : State) : ∃ (eng : Engine) (e : Entry),
    exec i s = .next { s with eng := eng, outstanding := s.outstanding ++ [e] } ∧
      e.what = .operation i ∧ e.response.op = opcodeOf i ∧ e.response.tag = tagOfInstr i ∧
      ((∀ tag trace c, i ≠ .configure tag trace c) → eng = s.eng) := by
  cases i with
  | configure tag trace c =>
    exact ⟨_, _, exec_configure tag trace c s, rfl, rfl, rfl, fun h => absurd rfl (h tag trace c)⟩
  | decode tag trace a kind page =>
    exact ⟨_, _, exec_decode tag trace a kind page s, rfl, rfl, rfl, fun _ => rfl⟩
  | encode tag trace l kind page eccOn =>
    exact ⟨_, _, exec_encode tag trace l kind page eccOn s, rfl, rfl, rfl, fun _ => rfl⟩

end Sys2Proof.Machine
end

