-- ==== Sys2Proof/Laws/PerInstr.lean ====
section
/-! SUPPORT. Facts about every operation as syntax, one lemma per constructor. -/

namespace Sys2Proof.Laws

/-- The request of an operation has its `op`, its `tag` and the number of payload words R98 gives. -/
def RequestShape.Statement (i : Instr) : Prop :=
  opOf (encodeRequest i).header = opcodeOf i ∧ tagOf (encodeRequest i).header = tagOfInstr i ∧
    reservedHeaderClear (encodeRequest i).header = true ∧
    payloadWords (opcodeOf i) = some (encodeRequest i).payload.length

/-- The header of R91 holds its fields in their places. -/
theorem requestHeader_fields (op : OpField) (trace : Bool) (tag : Tag) :
    opOf (requestHeader op trace tag) = op ∧ traceOf (requestHeader op trace tag) = trace ∧
      tagOf (requestHeader op trace tag) = tag ∧
      reservedHeaderClear (requestHeader op trace tag) = true := by
  refine ⟨?_, ?_, ?_, ?_⟩
  · apply BitVec.eq_of_getLsbD_eq; intro i hi
    simp only [opOf, requestHeader, BitVec.getLsbD_extractLsb', BitVec.getLsbD_append]
    interval_cases i <;> simp
  · simp only [traceOf, requestHeader, BitVec.getLsbD_append]
    simp
  · apply BitVec.eq_of_getLsbD_eq; intro i hi
    simp only [tagOf, requestHeader, BitVec.getLsbD_extractLsb', BitVec.getLsbD_append]
    interval_cases i <;> simp
  · simp only [reservedHeaderClear, Bool.and_eq_true, beq_iff_eq]
    constructor <;> apply BitVec.eq_of_getLsbD_eq <;> intro i hi <;>
      simp only [requestHeader, BitVec.getLsbD_extractLsb', BitVec.getLsbD_append] <;>
      interval_cases i <;> simp

theorem RequestShape.configure (tag : Tag) (trace : Bool) (c : Configuration) :
    RequestShape.Statement (.configure tag trace c) := by
  obtain ⟨h1, -, h3, h4⟩ := requestHeader_fields opConfigure trace tag
  exact ⟨h1, h3, h4, rfl⟩

theorem RequestShape.decode (tag : Tag) (trace : Bool) (a : Word) (kind : Option SurfaceKind)
    (page : Option PageSizeClass) : RequestShape.Statement (.decode tag trace a kind page) := by
  obtain ⟨h1, -, h3, h4⟩ := requestHeader_fields opDecode trace tag
  exact ⟨h1, h3, h4, rfl⟩

theorem RequestShape.encode (tag : Tag) (trace : Bool) (l : PhysicalLocation)
    (kind : Option SurfaceKind) (page : Option PageSizeClass) (eccOn : Bool) :
    RequestShape.Statement (.encode tag trace l kind page eccOn) := by
  obtain ⟨h1, -, h3, h4⟩ := requestHeader_fields opEncode trace tag
  exact ⟨h1, h3, h4, rfl⟩

end Sys2Proof.Laws
end

