-- ==== Sys2Proof/Tests/TP0.lean ====
section
/-! SUPPORT. The test instance TP0 and the named configurations CFG-A to CFG-D
(spec/92_eei_decisions.md D42 and section 2, spec/95_test_vectors.md section 2). -/

namespace Sys2Proof.Tests

open Sys2Proof.Machine

/-- The exclusive OR of the lowest `n` groups of `w` bits of `v`. -/
def xorGroups (w : Nat) : (n v : Nat) → Nat
  | 0, _ => 0
  | n + 1, v => v % 2 ^ w ^^^ xorGroups w n (v >>> w)

/-- `XOR` of the `w`-bit groups of `v`, 0 when `w = 0` (TP0 `partCorr`, `l2Fold`). -/
def xorFold (w v : Nat) : Nat := if w = 0 then 0 else xorGroups w (v.log2 + 1) v

/-- `x ⊕ (x[b] << 9)` (TP0 `ksHash`, Tiled). -/
def bitInto9 (b : Nat) (x : Word) : Word := if x.getLsbD b then x ^^^ 512#64 else x

/-- TP0 `ksHash`: the same in both generations; no entry for (LinearUnswizzled, Large). -/
def tp0KsHash : PageSizeClass → SurfaceKind → Option KsEntry
  | .large, .linearUnswizzled => none
  | _, .linear => some ⟨id, id⟩
  | _, .linearUnswizzled => some ⟨id, id⟩
  | .small, .tiled => some ⟨bitInto9 12, bitInto9 12⟩
  | .medium, .tiled => some ⟨bitInto9 16, bitInto9 16⟩
  | .large, .tiled => some ⟨bitInto9 17, bitInto9 17⟩

/-- TP0 `SUPPORTED_g`, up to the generation's largest partition count and smallest `G`. -/
def tp0Supported (maxPC minG : Nat) (c : Configuration) : Bool :=
  (1 ≤ cfgPC c && cfgPC c ≤ maxPC) && [1, 2, 4].contains c.xbarSliceCount.toNat &&
    [16, 32, 64].contains c.l2SetCount.toNat && [4, 8, 16].contains (cfgNB c) && minG ≤ cfgG c

/-- The keys that TP0 has entries for: those `SUPPORTED_1` admits contain those of `SUPPORTED_0`. -/
def tp0Key (k : PolicyKey) : Bool :=
  (1 ≤ k.partitionCount && k.partitionCount ≤ 6) && [1, 2, 4].contains k.xbarSliceCount &&
    [16, 32, 64].contains k.l2SetCount && [4, 8, 16].contains k.dramBankCount

/-- An entry at every TP0 key. -/
def atKeys {α : Type} (f : PolicyKey → α) (k : PolicyKey) : Option α :=
  if tp0Key k then some (f k) else none

/-- TP0 `POLICY`: generation 1 overrides two slots and inherits the rest. -/
def tp0Policy : Nat → PolicyTable
  | 0 =>
    { supported := tp0Supported 4 1
      ksHash := fun _ => tp0KsHash
      partCorr := atKeys fun _ => xorFold 2
      sliceOf := atKeys fun k q o => (q ^^^ (o >>> 7)) % k.xbarSliceCount
      l2Fold := atKeys fun k => xorFold k.l2SetCount.log2
      l2Combine := atKeys fun _ => .xor
      bankHash := atKeys fun _ => .fixedTerm (· % 4)
      subPartOf := atKeys fun _ _ o => (o >>> 7) % 2 }
  | _ =>
    { supported := tp0Supported 6 8
      ksHash := fun _ _ _ => none
      partCorr := fun _ => none
      sliceOf := fun _ => none
      l2Fold := fun _ => none
      l2Combine := atKeys fun _ => .addMod
      bankHash := atKeys fun _ => .tableFold 0 [1, 3, 7, 5, 2, 6, 4, 3]
      subPartOf := fun _ => none }

/-- TP0. -/
def tp0 : Params where
  numGenerations := 2
  numGenerations_pos := by decide
  genParent g := if g = 1 then some 0 else none
  genParent_lt := by
    intro g p h
    split at h
    · cases h; decide
    · cases h
  genParent_zero := rfl
  genParent_acyclic := ⟨id, by intro g p h; split at h <;> simp_all⟩
  policy := tp0Policy
  tileFieldLsb := 4
  tileFieldLsb_le := by decide
  kindTileTable i := Fin.ofNat 32 (5 * i.val + 3)
  kindTileTableInv j := Fin.ofNat 32 (13 * (j.val + 29))
  l2SectorBytes := 32
  l2SectorBytes_pow2 := ⟨5, rfl⟩
  l2SectorsPerLine := 4
  l2SectorsPerLine_pos := by decide
  bankRotWidth := 4
  bankRotWidth_le := by decide
  bankRotAmount := 1
  bankPerm nb _ tmp := (tmp % nb, tmp / nb)
  bankPermInv nb _ b r := r * nb + b
  subpartitionCount := 2
  subpartitionCount_pos := by decide
  maxOutstanding := 4
  maxOutstanding_pos := by decide
  eccCompact x := x - x / 16
  eccExpand y := y + y / 15

/-- CFG-A. -/
def cfgA : Configuration :=
  { generation := 0, partitionCount := 3, xbarSliceCount := 2, l2SetCount := 16, l2SetBits := 4,
    dramBankCount := 8, extBankBits := 1, dramPageSizeBytes := 1024, burstSizeBytes := 32,
    beatSizeBytes := 16, partitionInterleaveBytes := 256, bankSwizzleEnabled := false,
    eccEnabled := false, columnGranuleSizeBytes := 16 }

/-- CFG-B. -/
def cfgB : Configuration :=
  { cfgA with generation := 1, partitionCount := 1, bankSwizzleEnabled := true, eccEnabled := true }

/-- CFG-C. -/
def cfgC : Configuration :=
  { cfgA with partitionCount := 4, xbarSliceCount := 4, l2SetCount := 32, l2SetBits := 5,
              dramBankCount := 16, extBankBits := 0, dramPageSizeBytes := 2048,
              partitionInterleaveBytes := 512 }

/-- CFG-D. -/
def cfgD : Configuration :=
  { cfgA with generation := 1, partitionCount := 6, dramBankCount := 4, bankSwizzleEnabled := true }

/-- A DECODE under TP0 and a configuration, without trace. -/
def tp0Decode (c : Configuration) (a : Word) (k : SurfaceKind) (p : PageSizeClass) : Reply :=
  decodeReply tp0 ⟨true, c⟩ false a (some k) (some p)

/-- An ENCODE under TP0 and a configuration, without trace. -/
def tp0Encode (c : Configuration) (l : PhysicalLocation) (k : SurfaceKind) (p : PageSizeClass)
    (eccOn : Bool) : Reply :=
  encodeReply tp0 ⟨true, c⟩ false l (some k) (some p) eccOn

end Sys2Proof.Tests
end

