-- ==== Sys2Proof/Tests/TP0Laws.lean ====
section
/-! SUPPORT. TP0 satisfies the laws R136 to R143 and R262 under CFG-A and CFG-B, so the statements
that have them as hypotheses speak of something. -/

namespace Sys2Proof.Tests

open Sys2Proof.Machine

theorem xorGroups_lt (w n v : Nat) : xorGroups w n v < 2 ^ w := by
  induction n generalizing v with
  | zero => exact Nat.two_pow_pos w
  | succ n ih => exact Nat.xor_lt_two_pow (Nat.mod_lt _ (Nat.two_pow_pos w)) (ih _)

theorem xorFold_lt (w v : Nat) : xorFold w v < 2 ^ w := by
  unfold xorFold
  split
  · exact Nat.two_pow_pos w
  · exact xorGroups_lt w _ v

theorem tp0_eccDefault : EccDefault tp0 := ⟨fun _ => rfl, fun _ => rfl⟩

theorem tp0_tileLaws : TileLaws tp0 := ⟨by decide, by decide⟩

/-- Both configurations have eight banks and one rank bit. -/
theorem tp0_bankPermLaws (c : Configuration) (hb : cfgNB c = 8) (he : cfgExt c = 1) :
    BankPermLaws tp0 c := by
  constructor <;> simp only [cfgG_eq, hb, he, tp0] <;> intros <;> (try simp only [Prod.mk.injEq]) <;>
    omega

theorem xor_and_right (x y m : Word) : (x ^^^ y) &&& m = (x &&& m) ^^^ (y &&& m) := by
  apply BitVec.eq_of_getLsbD_eq
  intro i _
  simp only [BitVec.getLsbD_and, BitVec.getLsbD_xor]
  cases x.getLsbD i <;> cases y.getLsbD i <;> cases m.getLsbD i <;> rfl

/-- A Tiled hash of TP0, and the identity, leave the four bits of a 16-byte granule alone. -/
theorem bitInto9_laws (c : Configuration) (b : Nat) (hc : pageMaskWord c = 15#64) (hb : 9 < b)
    (h64 : b < 64) : KsLaws c ⟨bitInto9 b, bitInto9 b⟩ := by
  have hm : (~~~15#64).getLsbD b = true := by interval_cases b <;> rfl
  have h512 : (512#64).getLsbD b = false := by interval_cases b <;> rfl
  have hinv : ∀ x, bitInto9 b (bitInto9 b x) = x := by
    intro x
    cases h : x.getLsbD b <;> simp [bitInto9, h, h512]
  refine ⟨hinv, hinv, fun x => ?_, fun x => ?_⟩ <;> rw [hc]
  · cases h : x.getLsbD b <;> simp [bitInto9, h, xor_and_right]
  · have : (x &&& ~~~15#64).getLsbD b = x.getLsbD b := by
      rw [BitVec.getLsbD_and, hm, Bool.and_true]
    simp only [bitInto9, this]
    cases x.getLsbD b
    · simp
    · simp [xor_and_right]

theorem id_laws (c : Configuration) : KsLaws c ⟨id, id⟩ :=
  ⟨fun _ => rfl, fun _ => rfl, fun _ => rfl, fun _ => rfl⟩

theorem tp0KsHash_laws (c : Configuration) (hc : pageMaskWord c = 15#64) (p : PageSizeClass)
    (k : SurfaceKind) (ks : KsEntry) (h : tp0KsHash p k = some ks) : KsLaws c ks := by
  cases p <;> cases k <;> simp only [tp0KsHash, Option.some.injEq, reduceCtorEq] at h <;> subst h
  all_goals first
    | exact id_laws c
    | exact bitInto9_laws c _ hc (by decide) (by decide)

/-- The kind lookup of TP0 is `tp0KsHash`, in both generations. -/
theorem tp0_lookupKs (c : Configuration) (hg : cfgGen c = 0 ∨ cfgGen c = 1) (p : PageSizeClass)
    (k : SurfaceKind) : lookupKs tp0 c p k = tp0KsHash p k := by
  rcases hg with h | h <;> unfold lookupKs <;> rw [h]
  · cases p <;> cases k <;> rfl
  · cases p <;> cases k <;> rfl

/-- The resolved functions of CFG-A. -/
def polA : Policy :=
  { partCorr := xorFold 2
    sliceOf := fun q o => (q ^^^ (o >>> 7)) % 2
    l2Fold := xorFold 4
    l2Combine := .xor
    bankHash := .fixedTerm (· % 4)
    subPartOf := fun _ o => (o >>> 7) % 2 }

/-- The resolved functions of CFG-B. -/
def polB : Policy :=
  { polA with l2Combine := .addMod, bankHash := .tableFold 0 [1, 3, 7, 5, 2, 6, 4, 3] }

theorem resolve_cfgA : resolvePolicy tp0 cfgA = some polA := rfl

theorem resolve_cfgB : resolvePolicy tp0 cfgB = some polB := rfl

theorem shiftRight_granule {o o' : Nat} (h : o / 16 = o' / 16) : o >>> 7 = o' >>> 7 := by
  simp only [Nat.shiftRight_eq_div_pow]; omega

/-- The laws that the two policies share; `hh` is R140. -/
theorem policyLaws_of (c : Configuration) (pol : Policy) (hx : c.xbarSliceCount.toNat = 2)
    (hs : cfgS c = 4) (hg : cfgGRAN c = 16) (h1 : pol.sliceOf = polA.sliceOf)
    (h2 : pol.l2Fold = polA.l2Fold) (h3 : pol.subPartOf = polA.subPartOf)
    (hf : ∀ f, pol.bankHash = .fixedTerm f → ∀ r, f r < cfgG c)
    (ht : ∀ b T, pol.bankHash = .tableFold b T → ∀ t ∈ T, t < cfgG c) :
    PolicyLaws tp0 c pol := by
  refine ⟨?_, ?_, ?_, hf, ht, ?_, ?_⟩
  · intro q o; rw [h1, hx]; exact Nat.mod_lt _ (by decide)
  · intro q o o' h
    rw [hg] at h
    rw [h1]; simp only [polA]; rw [shiftRight_granule h]
  · intro t; rw [h2, hs]; exact xorFold_lt 4 t
  · intro b o; rw [h3]; exact Nat.mod_lt _ (by decide)
  · intro b o o' h
    rw [hg] at h
    rw [h3]; simp only [polA]; rw [shiftRight_granule h]

theorem tp0_policyLaws_cfgA : PolicyLaws tp0 cfgA polA := by
  apply policyLaws_of cfgA polA rfl rfl rfl rfl rfl rfl
  · intro f h r
    cases h
    exact lt_trans (Nat.mod_lt r (by decide)) (by decide)
  · intro b T h; cases h

theorem tp0_policyLaws_cfgB : PolicyLaws tp0 cfgB polB := by
  apply policyLaws_of cfgB polB rfl rfl rfl rfl rfl rfl
  · intro f h; cases h
  · intro b T h
    cases h
    decide

theorem tp0_lawsAt_cfgA : LawsAt tp0 cfgA where
  policy pol h := by rw [resolve_cfgA] at h; cases h; exact tp0_policyLaws_cfgA
  kind p k ks h := by
    rw [tp0_lookupKs cfgA (.inl rfl)] at h
    exact tp0KsHash_laws cfgA rfl p k ks h
  tile := tp0_tileLaws
  bankPerm := tp0_bankPermLaws cfgA rfl rfl

theorem tp0_lawsAt_cfgB : LawsAt tp0 cfgB where
  policy pol h := by rw [resolve_cfgB] at h; cases h; exact tp0_policyLaws_cfgB
  kind p k ks h := by
    rw [tp0_lookupKs cfgB (.inr rfl)] at h
    exact tp0KsHash_laws cfgB rfl p k ks h
  tile := tp0_tileLaws
  bankPerm := tp0_bankPermLaws cfgB rfl rfl

end Sys2Proof.Tests
end

