-- ==== Sys2Proof/Tests/Slice0.lean ====
section
/-! SUPPORT. Tests with values from spec/95_test_vectors.md and the encoding tables of
spec/30_encoding.md, and one witness for the hypotheses of each statement of Obligations.lean. -/

namespace Sys2Proof.Tests

open Sys2Proof.Machine

/-! ## Well-formed operations, and the checks of the decoder on ill-formed requests -/

/-- R94, R110: the one ill-formed operation is a CONFIGURE with `trace = 1`. -/
theorem test_wellFormed_refuses_configure_trace :
    (Instr.configure 1 true cfgA).wellFormed = false := by decide

/-- Also the witness of `DecodeInvertsEncode`. -/
theorem test_wellFormed_accepts :
    (Instr.configure 2 false cfgA).wellFormed = true ∧
      (Instr.decode 0xFF true 0x12345 none none).wellFormed = true ∧
      (Instr.encode 0 true default (some .tiled) none true).wellFormed = true := by decide

/-- A request with header `h` and payload `ws`, in the request channel of an idle block. -/
def sent (h : HeaderWord) (ws : List Word) : State :=
  { State.reset with inputs := [.request ⟨h, ws⟩] }

/-- The words of CFG-A (program P1, request 2). -/
def cfgAWords : List Word := [0, 3, 2, 0x10, 4, 8, 1, 0x400, 0x20, 0x10, 0x100, 0, 0, 0x10]

/-- Section 4.9: `op = 0x5` and `op = 0x0`, and the last reserved `op`. -/
theorem test_reserved_op :
    decodeRequest ⟨0x00000105#32, []⟩ = .error .reservedOp ∧
      decodeRequest ⟨0x00000200#32, []⟩ = .error .reservedOp ∧
      decodeRequest ⟨0x00000004#32, [0x12345, 0]⟩ = .error .reservedOp ∧
      decodeRequest ⟨0x0000000F#32, []⟩ = .error .reservedOp := by decide

/-- Bits 5, 7, 16 and 31 of the header (R96; sections 3 and 4.9). -/
theorem test_reserved_header_bits :
    decodeRequest ⟨0x00000322#32, [0x12345, 0]⟩ = .error .reservedHeaderBit ∧
      decodeRequest ⟨0x00000382#32, [0x12345, 0]⟩ = .error .reservedHeaderBit ∧
      decodeRequest ⟨0x00010101#32, cfgAWords⟩ = .error .reservedHeaderBit ∧
      decodeRequest ⟨0x80000302#32, [0x12345, 0]⟩ = .error .reservedHeaderBit := by decide

/-- Section 3: `trace = 1` on CONFIGURE. -/
theorem test_trace_on_configure :
    decodeRequest ⟨0x00000111#32, cfgAWords⟩ = .error .traceOnConfigure := by decide

/-- Payload lengths one below and one above R98's. -/
theorem test_payload_lengths :
    decodeRequest ⟨0x00000101#32, cfgAWords.take 13⟩ = .error .payloadLength ∧
      decodeRequest ⟨0x00000101#32, cfgAWords ++ [0]⟩ = .error .payloadLength ∧
      decodeRequest ⟨0x00000102#32, [0x12345]⟩ = .error .payloadLength ∧
      decodeRequest ⟨0x00000102#32, [0x12345, 0, 0]⟩ = .error .payloadLength ∧
      decodeRequest ⟨0x00000103#32, List.replicate 12 0⟩ = .error .payloadLength ∧
      decodeRequest ⟨0x00000103#32, List.replicate 14 0⟩ = .error .payloadLength := by decide

/-- Section 3 (`bankswz=2`, `ecc=3`), section 4.7 (mode word `0x10`), and the top bit of each word. -/
theorem test_reserved_payload_bits :
    decodeRequest ⟨0x00000101#32, cfgAWords.set 11 2⟩ = .error .reservedPayloadBit ∧
      decodeRequest ⟨0x00000101#32, cfgAWords.set 12 3⟩ = .error .reservedPayloadBit ∧
      decodeRequest ⟨0x00000102#32, [0x12345, 0x10]⟩ = .error .reservedPayloadBit ∧
      decodeRequest ⟨0x00000102#32, [0, 0x8000000000000000]⟩ = .error .reservedPayloadBit ∧
      decodeRequest ⟨0x00000103#32, List.replicate 12 0 ++ [0x20]⟩ = .error .reservedPayloadBit := by
  decide

/-! ## Decoding: request words of spec/95_test_vectors.md section 6 -/

/-- Program P1, request 2. -/
theorem test_decode_configure :
    decodeRequest ⟨0x00000201#32, cfgAWords⟩ = .ok (.configure 2 false cfgA) := by decide

/-- Program P1, request 3; and the unnamed kind and page of R107 and R108. -/
theorem test_decode_decode :
    decodeRequest ⟨0x00000302#32, [0x12345, 0]⟩ =
        .ok (.decode 3 false 0x12345 (some .linear) (some .small)) ∧
      decodeRequest ⟨0x00000312#32, [0x12345, 0xB]⟩ =
        .ok (.decode 3 true 0x12345 none (some .large)) ∧
      decodeRequest ⟨0x00000302#32, [0x12345, 0xC]⟩ =
        .ok (.decode 3 false 0x12345 (some .linear) none) := by decide

/-- The location of program P1, request 4. -/
def locA : PhysicalLocation :=
  { partitionId := 2, subPartitionId := 0, rankId := 0, bankId := 6, rowId := 1, columnId := 36,
    sliceId := 1, l2Set := 7, l2Tag := 6, l2Sector := 2, l2BankId := 0, xbarRawAddress := 103 }

/-- Program P1, request 4; and a mode word with every field set: `kind | page << 2 | eccOn << 4`. -/
theorem test_decode_encode :
    decodeRequest ⟨0x00000403#32, [2, 0, 0, 6, 1, 36, 1, 7, 6, 2, 0, 103, 0]⟩ =
        .ok (.encode 4 false locA (some .linear) (some .small) false) ∧
      decodeRequest ⟨0x00000413#32, [2, 0, 0, 6, 1, 36, 1, 7, 6, 2, 0, 103, 0x16]⟩ =
        .ok (.encode 4 true locA (some .tiled) (some .medium) true) := by decide

/-- The least significant byte of a word comes first (R72). -/
theorem test_request_bytes :
    requestBytes ⟨0x00000302#32, [0x12345, 0x8000000000000000]⟩ =
      [0x02, 0x03, 0, 0, 0x45, 0x23, 0x01, 0, 0, 0, 0, 0, 0, 0, 0, 0, 0, 0, 0, 0x80] := by decide

/-- The bytes of the response to program P1's request 4, OK with `0x12340` and mode 0 (R72, R92). -/
theorem test_response_bytes :
    responseBytes ⟨.ok, 3, 4, [0x12340, 0]⟩ =
      [0x30, 0x04, 0, 0, 0x40, 0x23, 0x01, 0, 0, 0, 0, 0, 0, 0, 0, 0, 0, 0, 0, 0] := by decide

/-- Section 4.9: response headers of an IllegalRequest, an InconsistentEccState and an InvalidLocation. -/
theorem test_response_headers :
    responseHeader ⟨.illegalRequest, 5, 1, []⟩ = 0x00000156#32 ∧
      responseHeader ⟨.inconsistentEccState, 3, 5, []⟩ = 0x00000534#32 ∧
      responseHeader ⟨.invalidLocation, 3, 6, []⟩ = 0x00000635#32 := by decide

/-! ## The operations under TP0 -/

/-- Section 3: CFG-A to CFG-D are accepted, and `pib=16384` holds item 12 with equality. -/
theorem test_configOk_accepts :
    configOk tp0 cfgA = true ∧ configOk tp0 cfgB = true ∧ configOk tp0 cfgC = true ∧
      configOk tp0 cfgD = true ∧
      configOk tp0 { cfgA with partitionInterleaveBytes := 16384 } = true := by decide

/-- Section 3, one row for each item of R132 that TP0 can break alone. -/
theorem test_configOk_refuses :
    configOk tp0 { cfgA with generation := 2 } = false ∧
      configOk tp0 { cfgA with partitionCount := 17 } = false ∧
      configOk tp0 { cfgA with dramBankCount := 6 } = false ∧
      configOk tp0 { cfgA with l2SetBits := 5 } = false ∧
      configOk tp0 { cfgA with extBankBits := 64 } = false ∧
      configOk tp0 { cfgA with dramPageSizeBytes := 8 } = false ∧
      configOk tp0 { cfgA with partitionInterleaveBytes := 264 } = false ∧
      configOk tp0 { cfgA with columnGranuleSizeBytes := 32 } = false ∧
      configOk tp0 { cfgA with partitionCount := 5 } = false ∧
      configOk tp0 { cfgA with partitionInterleaveBytes := 16400 } = false := by decide

/-- R176: `(6 << 4) | 7 = 103`; and for a set too large for its word, the words of its two parts. -/
theorem test_xbarWord :
    xbarWord 4 6 7 = 103 ∧
      xbarWord 4 6 (2 ^ 64) = (6#64 <<< 4) ||| Config.oversizeWord (2 ^ 64) := ⟨rfl, rfl⟩

/-- The location that DECODE gives for `0x12345`, Linear, Small in CFG-B (section 4.1). -/
def locB : PhysicalLocation :=
  { partitionId := 0, subPartitionId := 0, rankId := 1, bankId := 7, rowId := 4, columnId := 20,
    sliceId := 1, l2Set := 6, l2Tag := 18, l2Sector := 2, l2BankId := 0, xbarRawAddress := 294 }

/-- The example of section 4.1 with its trace, derived by hand there. -/
theorem test_decode_cfgB :
    decodeReply tp0 ⟨true, cfgB⟩ true 0x12345 (some .linear) (some .small) =
      ⟨.ok, locationWords locB ++ [74565, 74565, 69, 291, 0, 5, 294, 276, 280, 17, 8, 7]⟩ := by
  decide

/-- Section 4.7, CFG-D: Tiled, Small at the top address. -/
theorem test_decode_cfgD :
    tp0Decode cfgD 0xFFFFFFFFFFFFFFFF .tiled .small =
      ⟨.ok, [3, 1, 0, 1, 0x1555555555555, 30, 1, 12, 0x2AAAAAAAAAAAA, 3, 1, 0x2AAAAAAAAAAAAC]⟩ := by
  decide

/-- Section 4.8, CFG-A: ignored words arbitrary; the first row past R309's bound; an `eccOn` that
disagrees before a kind that does not exist. -/
theorem test_encode_cfgA :
    tp0Encode cfgA { locA with subPartitionId := 9, sliceId := 9, l2Set := 9, l2Tag := 9,
                               l2Sector := 9, l2BankId := 9, xbarRawAddress := 9 }
        .linear .small false = ⟨.ok, [0x12340, 0]⟩ ∧
      tp0Encode cfgA { (default : PhysicalLocation) with rowId := 375299968947541 }
        .linear .small false = ⟨.ok, [0xFFFFFFFFFFFFD100, 0]⟩ ∧
      tp0Encode cfgA { (default : PhysicalLocation) with rowId := 375299968947542 }
        .linear .small false = ⟨.invalidLocation, []⟩ ∧
      encodeReply tp0 ⟨true, cfgA⟩ false locA none (some .small) true =
        ⟨.inconsistentEccState, []⟩ := by decide

/-- The location of DECODE `0xf00`, Linear, Small in CFG-B, an ECC alias. -/
def locAlias : PhysicalLocation :=
  { (default : PhysicalLocation) with
    rankId := 1, bankId := 7, sliceId := 1, l2Set := 15, xbarRawAddress := 15 }

/-- Section 4.8, CFG-B: the alias is encoded to `0x1f00` (R263), with its trace. -/
theorem test_encode_cfgB :
    encodeReply tp0 ⟨true, cfgB⟩ true locAlias (some .linear) (some .small) true =
      ⟨.ok, [0x1F00, 0, 7936, 7936, 0, 31, 0, 0, 16, 15, 15, 0, 15, 0]⟩ := by decide

/-! ## One step -/

/-- A DECODE after reset is accepted, bound to the engine of reset and answered ConfigUnsupported
(section 4.10, R372, R374). -/
theorem test_step_after_reset :
    step (sent 0x00000102#32 [0x12345, 0]) = .next
      { State.reset with
        tick := 1
        outstanding := [⟨.operation (.decode 1 false 0x12345 (some .linear) (some .small)),
          some State.reset.eng, ⟨.configUnsupported, 2, 1, []⟩⟩] } := rfl

/-- A reset leaves `eng.valid = 0` whatever the engine was (section 4.10, R370). -/
theorem test_step_reset :
    step { configured cfgA with inputs := [.reset] } = .next { State.reset with tick := 1 } :=
  rfl

/-! ## Witnesses of the statements' hypotheses -/

/-- `EncodeInvertsDecode`, `FetchedTableWordRuns`: a table word of 160 bits, header first. -/
theorem witness_decodeTableWord :
    decodeTableWord 160 (0x00000302 + 0x12345 * 2 ^ 32 + 0xB * 2 ^ 96) =
        some (.decode 3 false 0x12345 none (some .large)) ∧
      decodeTableWord 32 0x00000401 =
        some (.configure 4 false Engine.afterReset.cfg) ∧
      decodeTableWord 32 0x00000503 =
        some (.encode 5 false default (some .linear) (some .small) false) := by decide

/-- `IllegalRequestIsAnswered`: one request of each illegal form of R110, at the head of the channel.
The bounds are the smallest or largest values that break each form. -/
theorem witness_illegalRequest :
    (∀ r rest, nextEvent { State.reset with inputs := .request r :: rest } = .accept r rest) ∧
      illegalRequestForm ⟨0x00000022#32, [0, 0]⟩ ∧ illegalRequestForm ⟨0x00010002#32, [0, 0]⟩ ∧
      illegalRequestForm ⟨0x00000000#32, []⟩ ∧ illegalRequestForm ⟨0x00000004#32, []⟩ ∧
      illegalRequestForm ⟨0x00000011#32, cfgAWords⟩ ∧
      illegalRequestForm ⟨0x00000001#32, cfgAWords.take 13⟩ ∧
      illegalRequestForm ⟨0x00000001#32, cfgAWords.set 11 2⟩ ∧
      illegalRequestForm ⟨0x00000001#32, cfgAWords.set 12 2⟩ ∧
      illegalRequestForm ⟨0x00000002#32, [0]⟩ ∧ illegalRequestForm ⟨0x00000002#32, [0, 16]⟩ ∧
      illegalRequestForm ⟨0x00000003#32, []⟩ ∧
      illegalRequestForm ⟨0x00000003#32, List.replicate 12 0 ++ [32]⟩ ∧
      ¬illegalRequestForm ⟨0x00000002#32, [0, 15]⟩ ∧
      ¬illegalRequestForm ⟨0x00000003#32, List.replicate 12 0 ++ [31]⟩ := by
  refine ⟨fun r rest => rfl, ?_, ?_, ?_, ?_, ?_, ?_, ?_, ?_, ?_, ?_, ?_, ?_, ?_, ?_⟩ <;>
    simp only [illegalRequestForm] <;> decide

/-- `ResolveTakesFirstEntry` in generation 1 of TP0: a slot of its own, a slot of its parent, and
none. -/
theorem witness_resolve :
    1 < tp0.numGenerations ∧ resolve tp0 (·.l2Combine (policyKey cfgB)) 1 = some .addMod ∧
      resolve tp0 (·.l2Combine (policyKey cfgB)) 0 = some .xor ∧
      (resolve tp0 (·.sliceOf (policyKey cfgB)) 1).isSome = true ∧
      (resolve tp0 (·.ksHash 1 .large .linearUnswizzled) 1).isNone = true := by decide

/-- `PolicyIsResolvedPerSlot`: a policy with slots of both generations, and a key without entries. -/
theorem witness_policy :
    resolvePolicy tp0 cfgB = some polB ∧
      (resolvePolicy tp0 { cfgA with partitionCount := 7 }).isNone = true :=
  ⟨resolve_cfgB, by decide⟩

/-- `DecodeCompletes`, `EncodeCompletes`: the engine of a configured state is valid, and the two
answers under TP0 are both met. -/
theorem witness_completes :
    (configured cfgB).eng.valid = true ∧ true = (configured cfgB).eng.cfg.eccEnabled ∧
      (lookupKs tp0 cfgB .small .linear).isSome = true ∧
      (lookupKs tp0 cfgB .large .linearUnswizzled).isSome = false ∧
      (resolvePolicy tp0 cfgB).isSome = true := by decide

/-- `DecodeStatusFollowsCheckOrder`, `EncodeStatusFollowsCheckOrder`: engines that meet `EngineOk`,
valid and not; each branch is met by the error vectors of section 4.7 and 4.8, check 8 at the first
row past R309's bound and the last one below it (`test_encode_cfgA`). -/
theorem witness_status :
    EngineOk tp0 ⟨true, cfgA⟩ ∧ EngineOk tp0 Engine.afterReset ∧
      (decodeReply tp0 Engine.afterReset false 0 none none).status = .configUnsupported ∧
      (decodeReply tp0 ⟨true, cfgA⟩ false 0 none none).status = .invalidSurfaceKind ∧
      (decodeReply tp0 ⟨true, cfgA⟩ false 0 (some .linear) none).status = .invalidPageSize ∧
      (tp0Decode cfgA 0 .linearUnswizzled .large).status = .configUnsupported ∧
      (encodeReply tp0 Engine.afterReset false locA none none true).status = .configUnsupported ∧
      (tp0Encode cfgA { locA with columnId := 64 } .linear .small false).status =
        .invalidLocation ∧
      (tp0Encode cfgA { locA with columnId := 63 } .linear .small false).status = .ok := by
  refine ⟨fun _ => by decide, fun h => by simp [Engine.afterReset] at h, ?_⟩
  decide

/-- `DecodeRangeInvariants`, `XbarIsTagAndSet`: an engine, a DECODE that it answers OK, and the laws,
for CFG-A and CFG-B; a configuration that fails, for the last clause of `ConfigOkIsTheTwelveItems`. -/
theorem witness_decode_ok :
    (EngineOk tp0 ⟨true, cfgA⟩ ∧
        (∀ pol, resolvePolicy tp0 cfgA = some pol → PolicyLaws tp0 cfgA pol) ∧
        BankPermLaws tp0 cfgA ∧
        answersOk (decodeReply tp0 ⟨true, cfgA⟩ false 0x12345 (some .linear) (some .small))
          (locationWords locA)) ∧
      (EngineOk tp0 ⟨true, cfgB⟩ ∧
        (∀ pol, resolvePolicy tp0 cfgB = some pol → PolicyLaws tp0 cfgB pol) ∧
        BankPermLaws tp0 cfgB ∧
        answersOk (decodeReply tp0 ⟨true, cfgB⟩ true 0x12345 (some .linear) (some .small))
          (locationWords locB)) ∧
      configOk tp0 { cfgA with partitionCount := 0 } = false :=
  ⟨⟨fun _ => by decide, tp0_lawsAt_cfgA.policy, tp0_lawsAt_cfgA.bankPerm,
      ⟨by decide, by decide⟩⟩,
    ⟨fun _ => by decide, tp0_lawsAt_cfgB.policy, tp0_lawsAt_cfgB.bankPerm,
      ⟨by decide, by decide⟩⟩, by decide⟩

/-- `DecodeValuesFit`: all its hypotheses together. -/
theorem witness_decode_fit :
    configOk tp0 cfgB = true ∧ resolvePolicy tp0 cfgB = some polB ∧ PolicyLaws tp0 cfgB polB ∧
      BankPermLaws tp0 cfgB ∧ (∀ x, tp0.eccCompact x ≤ x) ∧ tp0.subpartitionCount ≤ 2 ^ 64 :=
  ⟨by decide, resolve_cfgB, tp0_policyLaws_cfgB, tp0_lawsAt_cfgB.bankPerm,
    fun x => Nat.sub_le x (x / 16), by decide⟩

/-- `OnePartitionReadsNoCorrection`: CFG-B has one partition, and answers. -/
theorem witness_onePartition :
    cfgB.partitionCount.toNat = 1 ∧
      answersOk (decodeReply tp0 ⟨true, cfgB⟩ false 0xF00 (some .linear) (some .small))
        (locationWords locAlias) :=
  ⟨by decide, by decide, by decide⟩

/-- `DecodeReadsGranulesOnly`: `0x12345` and `0x1234F` differ only under `pageMask = 15`. -/
theorem witness_granules :
    configOk tp0 cfgA = true ∧ KsLaws cfgA ⟨bitInto9 12, bitInto9 12⟩ ∧
      (∀ q o o', o / cfgGRAN cfgA = o' / cfgGRAN cfgA → polA.sliceOf q o = polA.sliceOf q o') ∧
      (∀ q o o', o / cfgGRAN cfgA = o' / cfgGRAN cfgA → polA.subPartOf q o = polA.subPartOf q o') ∧
      0x12345#64 &&& ~~~pageMaskWord cfgA = 0x1234F#64 &&& ~~~pageMaskWord cfgA :=
  ⟨by decide, bitInto9_laws cfgA 12 rfl (by decide) (by decide), tp0_policyLaws_cfgA.sliceOf_granule,
    tp0_policyLaws_cfgA.subPartOf_granule, by decide⟩

/-- `TileLookupMovesOneField`: the bits next to the field of TP0, and its table laws. -/
theorem witness_tile :
    (3 < tp0.tileFieldLsb ∨ tp0.tileFieldLsb + 5 ≤ 3) ∧
      (9 < tp0.tileFieldLsb ∨ tp0.tileFieldLsb + 5 ≤ 9) ∧ TileLaws tp0 :=
  ⟨by decide, by decide, tp0_tileLaws⟩

/-- `PartitionJoinInvertsSplit`, `PartitionOfIsARotation`: the largest remainder and offset, for a
partition count that is a power of two and one that is not. -/
theorem witness_partition :
    1 ≤ cfgA.partitionInterleaveBytes.toNat ∧ 1 ≤ cfgA.partitionCount.toNat ∧
      2 < cfgA.partitionCount.toNat ∧ 255 < cfgA.partitionInterleaveBytes.toNat ∧
      (¬∃ n, cfgA.partitionCount.toNat = 2 ^ n) ∧ 3 < cfgC.partitionCount.toNat ∧
      ∃ n, cfgC.partitionCount.toNat = 2 ^ n := by
  refine ⟨by decide, by decide, by decide, by decide, ?_, by decide, 2, by decide⟩
  rw [← isPow2_iff]
  decide

/-- `CacheHashInverts` for both ways of combining, at the largest set. -/
theorem witness_cacheHash :
    (∀ t, polA.l2Fold t < 2 ^ cfgA.l2SetBits.toNat) ∧
      (∀ t, polB.l2Fold t < 2 ^ cfgB.l2SetBits.toNat) ∧ 15 < 2 ^ cfgA.l2SetBits.toNat :=
  ⟨tp0_policyLaws_cfgA.l2Fold_lt, tp0_policyLaws_cfgB.l2Fold_lt, by decide⟩

/-- `BankRotateInverts`: the flag at 1 with the top bit of the field, the flag at 0, and a width of
0. -/
theorem witness_bankRotate :
    cfgB.bankSwizzleEnabled = true ∧ 3 < tp0.bankRotWidth ∧ cfgA.bankSwizzleEnabled = false ∧
      (default : Params).bankRotWidth = 0 ∧ bankRotate tp0 cfgB 0x114 = 0x118 := by
  refine ⟨by decide, by decide, by decide, rfl, by decide⟩

/-- `EccAliasing`. -/
theorem witness_ecc : EccDefault tp0 ∧ (15 : Nat) % 16 = 15 ∧ (16 : Nat) % 16 ≠ 15 :=
  ⟨tp0_eccDefault, by decide⟩

/-- `RowColInverts` at the last offset; the values of section 4.6. -/
theorem witness_rowCol :
    configOk tp0 cfgA = true ∧ 255 < cfgA.partitionInterleaveBytes.toNat ∧
      rowCol cfgA 6 69 = (1, 36) ∧ rowColInv cfgA 4 20 = (17, 64) := by decide

/-- `BankHashFoldsSetBits`: the fixed term of R269's example; the table of TP0 is bounded by 8; values
of section 4.6. -/
theorem witness_bankHash :
    bankHashOf (.fixedTerm (· % 4)) 6 = 2 ∧
    (∀ t ∈ [1, 3, 7, 5, 2, 6, 4, 3], t < 2 ^ 3) ∧ bankHashOf polB.bankHash 60 = 6 ∧
      bankHashOf polB.bankHash 256 = 0 := by decide

/-- `EncodeResultIsGranuleAligned`. -/
theorem witness_aligned :
    configOk tp0 cfgA = true ∧ TileLaws tp0 ∧
      (∀ ks, lookupKs tp0 cfgA .small .linear = some ks → KsLaws cfgA ks) ∧
      answersOk (encodeReply tp0 ⟨true, cfgA⟩ false locA (some .linear) (some .small) false)
        [0x12340, modeWord (some .linear) (some .small)] :=
  ⟨by decide, tp0_tileLaws, tp0_lawsAt_cfgA.kind .small .linear, by decide, by decide⟩

/-- `EncodeUndoesDecode`, `DecodeUndoesEncode` outside the alias case: CFG-B, ECC on (section 4.1). -/
theorem witness_roundTrip :
    LawsAt tp0 cfgB ∧ EccDefault tp0 ∧ configOk tp0 cfgB = true ∧
      (lookupKs tp0 cfgB .small .linear).isSome = true ∧
      answersOk (decodeReply tp0 ⟨true, cfgB⟩ true 0x12345 (some .linear) (some .small))
        (locationWords locB) ∧
      cfgB.eccEnabled = true ∧ locB.xbarRawAddress.toNat % 16 ≠ 15 :=
  ⟨tp0_lawsAt_cfgB, tp0_eccDefault, by decide, by decide, ⟨by decide, by decide⟩, by decide,
    by decide⟩

/-- `EncodeUndoesDecode` in the alias case: `0xf00` in CFG-B. -/
theorem witness_roundTrip_alias :
    LawsAt tp0 cfgB ∧ EccDefault tp0 ∧ configOk tp0 cfgB = true ∧
      (lookupKs tp0 cfgB .small .linear).isSome = true ∧
      answersOk (decodeReply tp0 ⟨true, cfgB⟩ false 0xF00 (some .linear) (some .small))
        (locationWords locAlias) ∧
      cfgB.eccEnabled = true ∧ locAlias.xbarRawAddress.toNat % 16 = 15 :=
  ⟨tp0_lawsAt_cfgB, tp0_eccDefault, by decide, by decide, ⟨by decide, by decide⟩, by decide,
    by decide⟩

/-- The same without ECC: CFG-A. -/
theorem witness_roundTrip_noEcc :
    LawsAt tp0 cfgA ∧ EccDefault tp0 ∧ configOk tp0 cfgA = true ∧
      (lookupKs tp0 cfgA .small .linear).isSome = true ∧
      answersOk (decodeReply tp0 ⟨true, cfgA⟩ false 0x12345 (some .linear) (some .small))
        (locationWords locA) ∧
      cfgA.eccEnabled = false :=
  ⟨tp0_lawsAt_cfgA, tp0_eccDefault, by decide, by decide, ⟨by decide, by decide⟩, by decide⟩

/-- A DECODE that waits for its answer, as it does after reset. -/
def waiting : Entry :=
  ⟨.operation (.decode 1 false 0x12345 (some .linear) (some .small)), some Engine.afterReset,
    ⟨.configUnsupported, 2, 1, []⟩⟩

/-- `StepRunsDecodedOperation`, `AcceptanceBindsCurrentEngine`: a legal request is the next event. -/
theorem witness_accept :
    (sent 0x00000302#32 [0x12345, 0]).outstanding = [] ∧
      nextEvent (sent 0x00000302#32 [0x12345, 0]) = .accept ⟨0x00000302#32, [0x12345, 0]⟩ [] ∧
      decodeRequest ⟨0x00000302#32, [0x12345, 0]⟩ =
        .ok (.decode 3 false 0x12345 (some .linear) (some .small)) :=
  ⟨rfl, rfl, by decide⟩

/-- `FailedRequestKeepsEngine`: a CONFIGURE and a DECODE that fail. -/
theorem witness_failed :
    (configureReply Config.params true cfgA).status ≠ .ok ∧
      (configureReply Config.params false Engine.afterReset.cfg).status = .configUnsupported ∧
      (decodeReply Config.params ⟨true, cfgA⟩ false 0 none none).status ≠ .ok := by
  refine ⟨by decide, ?_, by decide⟩
  have : configOk Config.params Engine.afterReset.cfg = false := by
    simp [configOk, countsOk, cfgPC, Engine.afterReset]
  simp [configureReply, this]

/-- `ResetDiscardsOutstanding`: a reset is the next event; with a request outstanding, some schedule
takes it. -/
theorem witness_reset :
    nextEvent { configured cfgA with inputs := [.reset] } = .reset [] ∧
      nextEventOf tp0 (fun _ => 1)
        { configured cfgA with inputs := [.reset], outstanding := [waiting] } = .reset [] :=
  ⟨rfl, by decide⟩

/-- `DeliveryAnswersOneRequest`: the only action open is the only delivery. -/
theorem witness_delivery :
    nextEvent { State.reset with outstanding := [waiting] } = .answer 0 := by
  show Event.answer (Config.schedule 0 % 1) = .answer 0
  rw [Nat.mod_one]

/-- `AnyActionMayComeNext`: a request sent with one place free, a reset with none. -/
theorem witness_anyAction :
    2 < (List.replicate 3 waiting).length ∧
      { State.reset with inputs := [.request ⟨0x00000302#32, [0x12345, 0]⟩] }.inputs =
        .request ⟨0x00000302#32, [0x12345, 0]⟩ :: [] ∧
      (List.replicate 3 waiting).length < tp0.maxOutstanding ∧
      nextEventOf tp0 (fun _ => 3)
          { State.reset with
            outstanding := List.replicate 3 waiting
            inputs := [.request ⟨0x00000302#32, [0x12345, 0]⟩] } =
        .accept ⟨0x00000302#32, [0x12345, 0]⟩ [] ∧
      nextEventOf tp0 (fun _ => 4)
          { State.reset with outstanding := List.replicate 4 waiting, inputs := [.reset] } =
        .reset [] := by decide

/-- `FullBlockTakesNoRequest`: exactly `MAX_OUTSTANDING` requests, and a request sent. -/
theorem witness_full :
    Config.params.maxOutstanding ≤ (List.replicate Config.params.maxOutstanding waiting).length ∧
      tp0.maxOutstanding ≤ (List.replicate 4 waiting).length :=
  ⟨by simp, by decide⟩

/-- `StepKeepsInvariant`: a state with a valid engine does not need a request; one with a request
waiting meets the invariant as well, and both have a next state. -/
theorem witness_invariant :
    Inv { State.reset with outstanding := [waiting] } ∧
      ∃ t, step { State.reset with outstanding := [waiting] } = .next t := by
  refine ⟨⟨(fun h => nomatch h), ?_, Config.params.maxOutstanding_pos⟩, ?_⟩
  · intro e he
    obtain rfl : e = waiting := by simpa using he
    refine ⟨rfl, rfl, fun b hb => ?_⟩
    cases hb
    exact fun h => nomatch h
  · exact ⟨_, by rw [step, witness_delivery]⟩

/-- `RunAnswersAsServedInOrder`: two requests sent to an idle block. -/
theorem witness_run :
    (configured cfgA).outstanding = [] ∧
      { configured cfgA with inputs := [.request ⟨0x00000302#32, [0x12345, 0]⟩,
          .request ⟨0x00000105#32, []⟩] }.inputs =
        [(⟨0x00000302#32, [0x12345, 0]⟩ : Request), ⟨0x00000105#32, []⟩].map .request :=
  ⟨rfl, rfl⟩

end Sys2Proof.Tests
end

/-! PROOFS. The state of the block: the state after reset, the invariant that every step keeps, the
resolved policy, and the two registers that nothing reads. -/

namespace Sys2Proof.Machine

/-! ## When an engine and an entry meet their part of the invariant -/

theorem engineOk_of_invalid {P : Params} {e : Engine} (h : e.valid = false) : EngineOk P e :=
  fun hv => absurd hv (by simp [h])

theorem engineOk_of_configOk {P : Params} {c : Configuration} (h : configOk P c = true) :
    EngineOk P ⟨true, c⟩ :=
  fun _ => h

/-- CONFIGURE keeps the engine, makes it hold what it has just checked, or makes it invalid (R131,
R144, R145). -/
theorem configureEngine_engineOk {P : Params} {e : Engine} (he : EngineOk P e) (trace : Bool)
    (c unspecified : Configuration) : EngineOk P (configureEngine P trace c unspecified e) := by
  unfold configureEngine
  split
  case isTrue => exact he
  case isFalse =>
    split
    case isTrue hok => exact engineOk_of_configOk hok
    case isFalse => exact engineOk_of_invalid rfl

/-- An entry made from the answer `replyFor` gives, with no engine bound. -/
theorem entryOk_unbound (P : Params) {what : Accepted} (h : bindsEngine what = false) :
    EntryOk P ⟨what, none, responseTo what (replyFor P what none)⟩ where
  response := rfl
  binding := h.symm
  engine := by simp

/-- An entry made from the answer `replyFor` gives for the engine it is bound to. -/
theorem entryOk_bound {P : Params} {what : Accepted} {b : Engine} (h : bindsEngine what = true)
    (hb : EngineOk P b) : EntryOk P ⟨what, some b, responseTo what (replyFor P what (some b))⟩ where
  response := rfl
  binding := h.symm
  engine := by rintro _ ⟨⟩; exact hb

/-! ## What each kind of step does to the invariant -/

/-- Delivery: entries may leave `outstanding`, the engine stays. -/
theorem Inv.of_sublist {s t : State} (hs : Inv s) (he : t.eng = s.eng)
    (ho : t.outstanding.Sublist s.outstanding) : Inv t where
  engine := he ▸ hs.engine
  entries e h := hs.entries e (ho.subset h)
  bounded := ho.length_le.trans hs.bounded

/-- Acceptance: with a place free, one good entry may be added, and a good engine put in place. -/
theorem Inv.of_append {s t : State} {e : Entry} (hs : Inv s)
    (hfree : s.outstanding.length < Config.params.maxOutstanding)
    (heng : EngineOk Config.params t.eng) (hent : EntryOk Config.params e)
    (ho : t.outstanding = s.outstanding ++ [e]) : Inv t where
  engine := heng
  entries e' h := by
    rw [ho, List.mem_append, List.mem_singleton] at h
    rcases h with hold | rfl
    · exact hs.entries e' hold
    · exact hent
  bounded := by
    rw [ho, List.length_append, List.length_singleton]
    exact hfree

/-- A block with no engine and nothing outstanding, as a reset leaves it (R55, R370). -/
theorem Inv.of_reset {t : State} (he : t.eng.valid = false) (ho : t.outstanding = []) : Inv t where
  engine := engineOk_of_invalid he
  entries := by simp [ho]
  bounded := by simp [ho]

/-- Every operation adds one good entry and leaves a good engine: CONFIGURE binds nothing and puts in
place what it has checked; DECODE and ENCODE bind the engine of their acceptance and leave it
(R374). -/
theorem exec_adds_entryOk (i : Instr) {s t : State} (hs : EngineOk Config.params s.eng)
    (h : exec i s = .next t) :
    EngineOk Config.params t.eng ∧
      ∃ e, EntryOk Config.params e ∧ t.outstanding = s.outstanding ++ [e] := by
  cases i with
  | configure tag trace c =>
    cases (exec_configure tag trace c s).symm.trans h
    exact ⟨configureEngine_engineOk hs trace c _, _, entryOk_unbound _ rfl, rfl⟩
  | decode tag trace a kind page =>
    cases (exec_decode tag trace a kind page s).symm.trans h
    exact ⟨hs, _, entryOk_bound rfl hs, rfl⟩
  | encode tag trace l kind page eccOn =>
    cases (exec_encode tag trace l kind page eccOn s).symm.trans h
    exact ⟨hs, _, entryOk_bound rfl hs, rfl⟩

/-- Idling keeps the state, a delivery takes an entry away, a reset empties the block, and a request
is taken only where a place is free (R370, R374, R376, R379). -/
theorem step_preserves_inv {s t : State} (hs : Inv s) (h : step s = .next t) : Inv t := by
  rcases step_cases s with ⟨-, -, hidle⟩ | ⟨k, e, -, -, hdeliver⟩ | ⟨rest, -, hreset⟩ |
    ⟨r, rest, why, -, -, hfree, -, hillegal⟩ | ⟨r, rest, i, -, -, hfree, -, hexec⟩
  · cases hidle.symm.trans h
    exact hs
  · cases hdeliver.symm.trans h
    exact hs.of_sublist rfl (List.eraseIdx_sublist _ k)
  · cases hreset.symm.trans h
    exact .of_reset rfl rfl
  · cases hillegal.symm.trans h
    exact hs.of_append hfree hs.engine (entryOk_unbound _ rfl) rfl
  · obtain ⟨heng, e, hent, ho⟩ :=
      exec_adds_entryOk i (s := fetched s rest) hs.engine (hexec.symm.trans h)
    exact hs.of_append hfree heng hent ho

/-! ## The resolved policy -/

/-- There is a policy exactly when each of the six slots has an entry, and it is those entries. -/
theorem resolvePolicy_eq_some_iff (P : Params) (c : Configuration) (pol : Policy) :
    resolvePolicy P c = some pol ↔
      resolve P (·.partCorr (policyKey c)) (cfgGen c) = some pol.partCorr ∧
        resolve P (·.sliceOf (policyKey c)) (cfgGen c) = some pol.sliceOf ∧
        resolve P (·.l2Fold (policyKey c)) (cfgGen c) = some pol.l2Fold ∧
        resolve P (·.l2Combine (policyKey c)) (cfgGen c) = some pol.l2Combine ∧
        resolve P (·.bankHash (policyKey c)) (cfgGen c) = some pol.bankHash ∧
        resolve P (·.subPartOf (policyKey c)) (cfgGen c) = some pol.subPartOf := by
  constructor
  · intro h
    unfold resolvePolicy at h
    split at h
    next hpart hslice hfold hcomb hbank hsub =>
      cases h
      exact ⟨hpart, hslice, hfold, hcomb, hbank, hsub⟩
    next => cases h
  · rintro ⟨hpart, hslice, hfold, hcomb, hbank, hsub⟩
    simp only [resolvePolicy, hpart, hslice, hfold, hcomb, hbank, hsub]

/-! ## The registers `burstSizeBytes` and `beatSizeBytes` -/

section BurstAndBeat

variable (P : Params) (c : Configuration) (burst beat : Word)

/-- The configuration with other values in the two registers of R40 and R41. -/
def withBurstBeat : Configuration := { c with burstSizeBytes := burst, beatSizeBytes := beat }

theorem resolvePolicy_withBurstBeat :
    resolvePolicy P (withBurstBeat c burst beat) = resolvePolicy P c := rfl

theorem lookupKs_withBurstBeat (p : PageSizeClass) (k : SurfaceKind) :
    lookupKs P (withBurstBeat c burst beat) p k = lookupKs P c p k := rfl

theorem decodePipeline_withBurstBeat (pol : Policy) (ks : KsEntry) (a : Word)
    (k : SurfaceKind) :
    decodePipeline P pol ks (withBurstBeat c burst beat) a k = decodePipeline P pol ks c a k := rfl

theorem decodePayload_withBurstBeat (trace : Bool) (d : Decoded) :
    decodePayload (withBurstBeat c burst beat) trace d = decodePayload c trace d := rfl

theorem inRange_withBurstBeat (l : PhysicalLocation) :
    inRange (withBurstBeat c burst beat) l = inRange c l := rfl

theorem encodePipeline_withBurstBeat (pol : Policy) (ks : KsEntry) (l : PhysicalLocation)
    (k : SurfaceKind) :
    encodePipeline P pol ks (withBurstBeat c burst beat) l k = encodePipeline P pol ks c l k := rfl

theorem eccEnabled_withBurstBeat :
    (withBurstBeat c burst beat).eccEnabled = c.eccEnabled := rfl

theorem decodeReply_withBurstBeat (v trace : Bool) (a : Word) (kind : Option SurfaceKind)
    (page : Option PageSizeClass) :
    decodeReply P ⟨v, withBurstBeat c burst beat⟩ trace a kind page =
      decodeReply P ⟨v, c⟩ trace a kind page := by
  simp only [decodeReply, lookupKs_withBurstBeat, resolvePolicy_withBurstBeat,
    decodePipeline_withBurstBeat, decodePayload_withBurstBeat]

theorem encodeReply_withBurstBeat (v trace : Bool) (l : PhysicalLocation)
    (kind : Option SurfaceKind) (page : Option PageSizeClass) (eccOn : Bool) :
    encodeReply P ⟨v, withBurstBeat c burst beat⟩ trace l kind page eccOn =
      encodeReply P ⟨v, c⟩ trace l kind page eccOn := by
  unfold encodeReply
  rw [eccEnabled_withBurstBeat, inRange_withBurstBeat]
  simp only [lookupKs_withBurstBeat, resolvePolicy_withBurstBeat, encodePipeline_withBurstBeat]

end BurstAndBeat

/-! ## The obligations -/

/-- Settles O45, by the cases of a step. -/
theorem stepKeepsInvariant : Obligations.StepKeepsInvariant :=
  fun _ _ => step_preserves_inv

/-- Settles O34: the lookups, the range checks and the pipelines read other registers only. -/
theorem burstAndBeatAreNotRead : Obligations.BurstAndBeatAreNotRead :=
  fun P v trace c burst beat =>
    ⟨decodeReply_withBurstBeat P c burst beat v trace,
      encodeReply_withBurstBeat P c burst beat v trace⟩

/-- Settles O38. -/
theorem resetLeavesNoEngine : Obligations.ResetLeavesNoEngine :=
  ⟨rfl, rfl, rfl⟩

/-- Settles O44. -/
theorem resetMeetsInvariant : Obligations.ResetMeetsInvariant :=
  .of_reset rfl rfl

/-- Settles O49, by the six slots of `resolvePolicy` and the definition of `lookupKs`. -/
theorem policyIsResolvedPerSlot : Obligations.PolicyIsResolvedPerSlot :=
  fun P c => ⟨resolvePolicy_eq_some_iff P c, fun _ _ => rfl⟩

end Sys2Proof.Machine

/-! PROOFS. The channels of the block: words as bytes, what the schedule may choose and what a
delivery does, the step that runs a placed request, and the answers of a whole run. -/

namespace Sys2Proof.Machine

/-! ## Words as bytes (R72) -/

@[simp] theorem length_littleEndian (n v : Nat) : (littleEndian n v).length = n := by
  simp [littleEndian]

/-- Byte `k` of a word is its bits `8k+7 .. 8k` (R72). -/
theorem getElem?_littleEndian {b n k : Nat} (w : BitVec b) (hk : k < n) :
    (littleEndian n w.toNat)[k]? = some (w.extractLsb' (8 * k) 8) := by
  simp only [littleEndian, List.getElem?_map, List.getElem?_range hk, Option.map_some]
  rfl

theorem littleEndian_succ (n v : Nat) :
    littleEndian (n + 1) v = BitVec.ofNat 8 v :: littleEndian n (v / 256) := by
  have hshift : ∀ k, v >>> (8 * (k + 1)) = (v / 256) >>> (8 * k) := fun k => by
    rw [Nat.mul_succ, Nat.add_comm, Nat.shiftRight_add, Nat.shiftRight_eq_div_pow v 8]
  simp only [littleEndian, List.range_succ_eq_map, List.map_cons, List.map_map, Nat.mul_zero,
    Nat.shiftRight_zero, Function.comp_def, Nat.succ_eq_add_one, hshift]

/-- Reading `n` bytes of a value gives its value modulo `256 ^ n`: nothing is lost below that. -/
theorem ofLittleEndian_littleEndian (n v : Nat) :
    ofLittleEndian (littleEndian n v) = v % 256 ^ n := by
  induction n generalizing v with
  | zero => simp [littleEndian, ofLittleEndian, Nat.mod_one]
  | succ n ih =>
    rw [littleEndian_succ, ofLittleEndian, ih, BitVec.toNat_ofNat, Nat.pow_succ' (m := 256)]
    exact Nat.mod_mul.symm

/-- A word of `n` bytes is read back from its bytes. -/
theorem ofNat_ofLittleEndian_littleEndian (n : Nat) (w : BitVec (8 * n)) :
    BitVec.ofNat (8 * n) (ofLittleEndian (littleEndian n w.toNat)) = w := by
  apply BitVec.eq_of_toNat_eq
  have hlt : w.toNat < 256 ^ n := by simpa [Nat.pow_mul] using w.isLt
  rw [ofLittleEndian_littleEndian, Nat.mod_eq_of_lt hlt, BitVec.ofNat_toNat, BitVec.setWidth_eq]

/-- The bytes of payload words, as requests and responses both carry them after their header. -/
def bytesOfWords (ws : List Word) : List Byte := ws.flatMap fun w => littleEndian 8 w.toNat

theorem requestBytes_eq (r : Request) :
    requestBytes r = littleEndian 4 r.header.toNat ++ bytesOfWords r.payload := rfl

theorem responseBytes_eq (r : Response) :
    responseBytes r = littleEndian 4 (responseHeader r).toNat ++ bytesOfWords r.payload := rfl

theorem bytesOfWords_cons (w : Word) (ws : List Word) :
    bytesOfWords (w :: ws) = littleEndian 8 w.toNat ++ bytesOfWords ws := rfl

/-- The words read from the bytes of words are those words. -/
theorem wordsOfBytes_bytesOfWords (ws : List Word) :
    wordsOfBytes (bytesOfWords ws) = some ws := by
  induction ws with
  | nil => rfl
  | cons w ws ih =>
    have hword : BitVec.ofNat 64 (ofLittleEndian (littleEndian 8 w.toNat)) = w :=
      ofNat_ofLittleEndian_littleEndian 8 w
    calc wordsOfBytes (bytesOfWords (w :: ws))
        = (wordsOfBytes (bytesOfWords ws)).map
            (BitVec.ofNat 64 (ofLittleEndian (littleEndian 8 w.toNat)) :: ·) := rfl
      _ = some (w :: ws) := by rw [ih, hword, Option.map_some]

/-- The request read from the bytes of a request is that request, whatever its number of words. -/
theorem requestOfBytes_requestBytes (r : Request) : requestOfBytes (requestBytes r) = some r := by
  have hheader : BitVec.ofNat 32 (ofLittleEndian (littleEndian 4 r.header.toNat)) = r.header :=
    ofNat_ofLittleEndian_littleEndian 4 r.header
  calc requestOfBytes (requestBytes r)
      = (wordsOfBytes (bytesOfWords r.payload)).map
          (⟨BitVec.ofNat 32 (ofLittleEndian (littleEndian 4 r.header.toNat)), ·⟩) := rfl
    _ = some r := by rw [wordsOfBytes_bytesOfWords, hheader, Option.map_some]

theorem decodeBytes_requestBytes (r : Request) :
    decodeBytes (requestBytes r) = (decodeRequest r).toOption := by
  simp only [decodeBytes, requestOfBytes_requestBytes]

theorem length_bytesOfWords (ws : List Word) : (bytesOfWords ws).length = 8 * ws.length := by
  induction ws with
  | nil => rfl
  | cons w ws ih =>
    rw [bytesOfWords_cons, List.length_append, ih, length_littleEndian, List.length_cons]
    omega

/-- Byte `8i + k` of a run of words is byte `k` of word `i`. -/
theorem getElem?_bytesOfWords {ws : List Word} {i k : Nat} {w : Word}
    (hw : ws[i]? = some w) (hk : k < 8) :
    (bytesOfWords ws)[8 * i + k]? = some (w.extractLsb' (8 * k) 8) := by
  induction ws generalizing i with
  | nil => simp at hw
  | cons v ws ih =>
    rw [bytesOfWords_cons]
    cases i with
    | zero =>
      obtain rfl : v = w := by simpa using hw
      rw [Nat.mul_zero, Nat.zero_add, List.getElem?_append_left (by simpa using hk),
        getElem?_littleEndian v hk]
    | succ i =>
      have hrest : 8 * (i + 1) + k - 8 = 8 * i + k := by omega
      rw [List.getElem?_append_right (by simp; omega), length_littleEndian, hrest]
      exact ih (by simpa using hw)

/-- A header and payload words, each little-endian, are carried as R72 and R90 say: requests and
responses have this form. -/
theorem carriesWords_littleEndian (h : HeaderWord) (ws : List Word) :
    carriesWords (littleEndian 4 h.toNat ++ bytesOfWords ws) h ws := by
  refine ⟨?_, fun k hk => ?_, fun i w hw k hk => ?_⟩
  · rw [List.length_append, length_littleEndian, length_bytesOfWords]
  · rw [List.getElem?_append_left (by simpa using hk), getElem?_littleEndian h hk]
  · have hrest : 4 + 8 * i + k - 4 = 8 * i + k := by omega
    rw [List.getElem?_append_right (by simp; omega), length_littleEndian, hrest,
      getElem?_bytesOfWords hw hk]

/-! ## What the schedule may choose (R80, R376, R379, R380) -/

/-- The schedule that says `k` delivers outstanding request `k`, whether or not an input waits. -/
theorem nextEventOf_const_answer (P : Params) {s : State} {k : Nat}
    (hk : k < s.outstanding.length) : nextEventOf P (fun _ => k) s = .answer k := by
  unfold nextEventOf
  split
  next ho _ => simp [ho] at hk
  next ho _ => simp [ho] at hk
  next ho _ => rw [ho] at hk; rw [Nat.mod_eq_of_lt hk]
  next ho _ =>
    rw [ho] at hk
    rw [Nat.mod_eq_of_lt hk, Nat.mod_eq_of_lt (Nat.lt_succ_of_lt hk), if_neg (Nat.ne_of_lt hk),
      ite_self]

/-- The schedule that says the number of outstanding requests takes the oldest input that may be
taken. -/
theorem nextEventOf_const_takeInput (P : Params) {s : State} {i : Input} {rest : List Input}
    (hi : s.inputs = i :: rest) (hc : canTake P s.outstanding i = true) :
    nextEventOf P (fun _ => s.outstanding.length) s = takeInput i rest := by
  unfold nextEventOf
  rw [hi]
  cases ho : s.outstanding with
  | nil => rfl
  | cons e es =>
    rw [ho] at hc
    simp [hc]

/-- With nothing outstanding, the oldest input is what comes next. -/
theorem nextEvent_of_outstanding_nil {s : State} {i : Input} {rest : List Input}
    (ho : s.outstanding = []) (hi : s.inputs = i :: rest) : nextEvent s = takeInput i rest := by
  simp only [nextEvent, nextEventOf, ho, hi]

/-! ## What a step does for one event -/

theorem step_of_answer {s : State} {k : Nat} (h : nextEvent s = .answer k) :
    step s = .next (answer k s) := by
  simp only [step, h]

theorem step_of_accept {s : State} {r : Request} {rest : List Input} {i : Instr}
    (h : nextEvent s = .accept r rest) (hd : decodeRequest r = .ok i) :
    step s = exec i (fetched s rest) := by
  simp only [step, h, hd]

theorem decodeRequest_of_decodeTableWord {nbits w : Nat} {i : Instr}
    (h : decodeTableWord nbits w = some i) :
    decodeRequest (requestOfTableWord nbits w) = .ok i := by
  rw [decodeTableWord, decodeBytes_requestBytes] at h
  cases hd : decodeRequest (requestOfTableWord nbits w) with
  | error why => simp [hd, Except.toOption] at h
  | ok j => simpa [hd, Except.toOption] using h

/-! ## Acceptance against serving alone (R79, R374) -/

/-- The order-free meaning keeps of the engine all that a DECODE reads. -/
theorem decodeReply_engineOf_observed (P : Params) (e : Engine) (trace : Bool) (a : Word)
    (kind : Option SurfaceKind) (page : Option PageSizeClass) :
    decodeReply P (engineOf (observed e)) trace a kind page =
      decodeReply P e trace a kind page := by
  obtain ⟨_ | _, c⟩ := e <;> rfl

/-- The order-free meaning keeps of the engine all that an ENCODE reads. -/
theorem encodeReply_engineOf_observed (P : Params) (e : Engine) (trace : Bool)
    (l : PhysicalLocation) (kind : Option SurfaceKind) (page : Option PageSizeClass)
    (eccOn : Bool) :
    encodeReply P (engineOf (observed e)) trace l kind page eccOn =
      encodeReply P e trace l kind page eccOn := by
  obtain ⟨_ | _, c⟩ := e <;> rfl

/-- What the host observes after a CONFIGURE (R131, R144, R145): the free registers that a failed
one leaves are not seen. -/
theorem observed_configureEngine (P : Params) (tag : Tag) (trace : Bool)
    (c unspecified : Configuration) (e : Engine) :
    observed (configureEngine P trace c unspecified e) =
      engineAfter P (observed e) (.configure tag trace c) := by
  cases trace with
  | true => rfl
  | false => cases h : configOk P c <;> simp [configureEngine, engineAfter, observed, h]

/-- An operation adds the entry whose response is that of the operation served alone on the observed
engine, and leaves the engine that serving leaves. -/
theorem exec_serves (i : Instr) (s : State) : ∃ t e,
    exec i s = .next t ∧ t.outstanding = s.outstanding ++ [e] ∧ t.inputs = s.inputs ∧
      t.responses = s.responses ∧
      e.response = responseTo (.operation i)
        (replyFor Config.params (.operation i) (some (engineOf (observed s.eng)))) ∧
      observed t.eng = engineAfter Config.params (observed s.eng) i := by
  cases i with
  | configure tag trace c =>
    exact ⟨_, _, exec_configure tag trace c s, rfl, rfl, rfl, rfl,
      observed_configureEngine Config.params tag trace c _ s.eng⟩
  | decode tag trace a kind page =>
    refine ⟨_, _, exec_decode tag trace a kind page s, rfl, rfl, rfl, ?_, rfl⟩
    rw [replyFor, decodeReply_engineOf_observed]
  | encode tag trace l kind page eccOn =>
    refine ⟨_, _, exec_encode tag trace l kind page eccOn s, rfl, rfl, rfl, ?_, rfl⟩
    rw [replyFor, encodeReply_engineOf_observed]

/-- A step that takes a request adds the entry whose response is that of the request served
alone. -/
theorem step_accept_serves {s : State} {r : Request} {rest : List Input}
    (h : nextEvent s = .accept r rest) : ∃ t e,
    step s = .next t ∧ t.outstanding = s.outstanding ++ [e] ∧ t.inputs = rest ∧
      t.responses = s.responses ∧
      serveOne Config.params (observed s.eng) r = (observed t.eng, e.response) := by
  cases hd : decodeRequest r with
  | error why =>
    refine ⟨acceptIllegal r why (fetched s rest), _, by simp only [step, h, hd], rfl, rfl, rfl,
      ?_⟩
    simp only [serveOne, hd]
    rfl
  | ok i =>
    obtain ⟨t, e, hexec, hout, hin, hresp, hans, heng⟩ := exec_serves i (fetched s rest)
    refine ⟨t, e, (step_of_accept h hd).trans hexec, hout, hin, hresp, ?_⟩
    simp only [serveOne, hd, hans, heng, fetched_eng]

/-! ## The answers of a run (R79, R80, R376, R381) -/

/-- `n` steps from `s` end quiescent; the responses they deliver are, in some order, those that wait
in `outstanding` and those of the requests `rs` served one after another, and the engine is the one
serving leaves. -/
def RunServes (n : Nat) (s : State) (rs : List Request) : Prop :=
  ∃ (t : State) (out : List Response),
    Sys2Proof.core.run n s = .next t ∧ quiescent t = true ∧ t.responses = s.responses ++ out ∧
      out.Perm (s.outstanding.map (·.response) ++
        (serveAll Config.params (observed s.eng) rs).2) ∧
      observed t.eng = (serveAll Config.params (observed s.eng) rs).1

theorem RunServes.of_quiescent {s : State} (ho : s.outstanding = []) (hi : s.inputs = []) :
    RunServes 0 s [] := by
  refine ⟨s, [], rfl, ?_, (List.append_nil _).symm, ?_, rfl⟩
  · simp [quiescent, ho, hi]
  · simp [ho, serveAll]

/-- A delivery moves one waiting response to those delivered. -/
theorem RunServes.of_delivery {n k : Nat} {s t : State} {e : Entry} {rs : List Request}
    (hstep : step s = .next t) (hk : s.outstanding[k]? = some e)
    (hout : t.outstanding = s.outstanding.eraseIdx k)
    (hresp : t.responses = s.responses ++ [e.response]) (heng : t.eng = s.eng)
    (h : RunServes n t rs) : RunServes (n + 1) s rs := by
  obtain ⟨u, out, hrun, hq, hu, hperm, hobs⟩ := h
  obtain ⟨hlt, rfl⟩ := List.getElem?_eq_some_iff.1 hk
  rw [heng] at hobs hperm
  refine ⟨u, s.outstanding[k].response :: out, (core_run_succ n s t hstep).trans hrun, hq, ?_, ?_,
    hobs⟩
  · rw [hu, hresp, List.append_assoc, List.singleton_append]
  · have herase := (List.getElem_cons_eraseIdx_perm hlt).map (·.response)
    rw [hout] at hperm
    exact (hperm.cons _).trans (herase.append_right _)

/-- An acceptance moves the first request's response from those to be served to those that wait. -/
theorem RunServes.of_acceptance {n : Nat} {s t : State} {e : Entry} {r : Request}
    {rs : List Request} (hstep : step s = .next t) (hout : t.outstanding = s.outstanding ++ [e])
    (hresp : t.responses = s.responses)
    (hserve : serveOne Config.params (observed s.eng) r = (observed t.eng, e.response))
    (h : RunServes n t rs) : RunServes (n + 1) s (r :: rs) := by
  obtain ⟨u, out, hrun, hq, hu, hperm, hobs⟩ := h
  have hall : serveAll Config.params (observed s.eng) (r :: rs) =
      ((serveAll Config.params (observed t.eng) rs).1,
        e.response :: (serveAll Config.params (observed t.eng) rs).2) := by
    simp only [serveAll, hserve]
  refine ⟨u, out, (core_run_succ n s t hstep).trans hrun, hq, hresp ▸ hu, ?_, ?_⟩
  · rw [hall]
    simpa [hout] using hperm
  · rw [hall, hobs]

/-- From every state to which only requests are sent, by induction on the work that is pending: each
step that is not idle does one unit of it. -/
theorem runServes_pendingWork (n : Nat) (s : State) (rs : List Request)
    (hi : s.inputs = rs.map .request) (hn : pendingWork s = n) : RunServes n s rs := by
  induction n generalizing s rs with
  | zero =>
    obtain ⟨hin, hout⟩ : s.inputs.length = 0 ∧ s.outstanding.length = 0 := by
      unfold pendingWork at hn
      omega
    have hnil := List.eq_nil_of_length_eq_zero hin
    obtain rfl : rs = [] := List.map_eq_nil_iff.1 (hi.symm.trans hnil)
    exact .of_quiescent (List.eq_nil_of_length_eq_zero hout) hnil
  | succ n ih =>
    have haccept : ∀ r rest, nextEvent s = .accept r rest → s.inputs = .request r :: rest →
        RunServes (n + 1) s rs := by
      intro r rest hev hin
      obtain ⟨t, e, hstep, hout, hrest, hresp, hserve⟩ := step_accept_serves hev
      obtain ⟨r', rs', rfl, hr, hrs⟩ := List.map_eq_cons_iff.1 (hi.symm.trans hin)
      cases hr
      refine .of_acceptance hstep hout hresp hserve (ih t rs' (hrest.trans hrs.symm) ?_)
      simp only [pendingWork, hin, hrest, hout, List.length_cons, List.length_append,
        List.length_nil] at hn ⊢
      omega
    rcases step_cases s with ⟨ho, hin, -⟩ | ⟨k, e, -, hk, hstep⟩ | ⟨rest, hin, -⟩ |
      ⟨r, rest, -, hev, hin, -⟩ | ⟨r, rest, -, hev, hin, -⟩
    · simp [pendingWork, ho, hin] at hn
    · refine .of_delivery hstep hk rfl rfl rfl (ih _ rs hi ?_)
      obtain ⟨hlt, -⟩ := List.getElem?_eq_some_iff.1 hk
      simp only [pendingWork, List.length_eraseIdx_of_lt hlt] at hn ⊢
      omega
    · obtain ⟨r, rs', -, hr, -⟩ := List.map_eq_cons_iff.1 (hi.symm.trans hin)
      cases hr
    · exact haccept r rest hev hin
    · exact haccept r rest hev hin

/-! ## The obligations on the channels -/

/-- Settles O47: the run's answers, with nothing waiting at its start. -/
theorem runAnswersAsServedInOrder : Obligations.RunAnswersAsServedInOrder := by
  intro s rs ho hi
  obtain ⟨t, out, hrun, hq, hresp, hperm, hobs⟩ := runServes_pendingWork _ s rs hi rfl
  exact ⟨t, out, hrun, hq, hresp, by simpa [ho] using hperm, hobs⟩

/-- Settles O6: the bytes of each word by its bits, and the reading by induction on the words. -/
theorem requestBytesRoundTrip : Obligations.RequestBytesRoundTrip :=
  ⟨fun w _ hk => getElem?_littleEndian w hk, fun h _ hk => getElem?_littleEndian h hk,
    fun r => ⟨requestBytes_eq r ▸ carriesWords_littleEndian r.header r.payload,
      requestOfBytes_requestBytes r⟩⟩

/-- Settles O41: a constant schedule picks each action that is open. -/
theorem anyActionMayComeNext : Obligations.AnyActionMayComeNext := by
  intro P s
  refine ⟨fun k hk => ⟨_, nextEventOf_const_answer P hk⟩, fun r rest hi hroom => ?_,
    fun rest hi => ⟨_, nextEventOf_const_takeInput P hi rfl⟩⟩
  exact ⟨_, nextEventOf_const_takeInput P hi (by simpa [canTake] using hroom)⟩

/-- Settles O50. -/
theorem responseBytesAreLittleEndian : Obligations.ResponseBytesAreLittleEndian :=
  fun r => responseBytes_eq r ▸ carriesWords_littleEndian (responseHeader r) r.payload

/-- Settles O8: the placed request is the next event, and its bytes decode as it does. -/
theorem fetchedTableWordRuns : Obligations.FetchedTableWordRuns := by
  intro s nbits w i hd
  have hev : nextEvent (s.withFetchWord nbits w) = .accept (requestOfTableWord nbits w) s.inputs :=
    nextEvent_of_outstanding_nil (i := .request (requestOfTableWord nbits w)) rfl rfl
  exact step_of_accept hev (decodeRequest_of_decodeTableWord hd)

/-- Settles O40. -/
theorem deliveryAnswersOneRequest : Obligations.DeliveryAnswersOneRequest := by
  intro s k h
  have hk := List.getElem?_eq_getElem (nextEvent_answer h)
  exact ⟨_, hk, (step_of_answer h).trans (congrArg _ (answer_of_getElem? hk))⟩

end Sys2Proof.Machine

/-! PROOFS. The encoding: each field of a header, a flag word or a mode word is read back, and a
word whose reserved bits are 0 is made of its fields; so the decoder and the encoder invert each
other (spec/30_encoding.md R90 to R110). -/

namespace Sys2Proof

open Machine

/-! ## Fields of a word -/

theorem ofBool_getLsbD {n : Nat} (w : BitVec n) (i : Nat) :
    BitVec.ofBool (w.getLsbD i) = w.extractLsb' i 1 := by
  have hbit : ∀ v : BitVec 1, BitVec.ofBool (v == 1#1) = v := by decide
  rw [BitVec.getLsbD_eq_extractLsb', hbit]

theorem getLsbD_of_extractLsb'_eq_ofBool {n i : Nat} {w : BitVec n} {b : Bool}
    (h : w.extractLsb' i 1 = BitVec.ofBool b) : w.getLsbD i = b :=
  BitVec.ofBool_eq_iff_eq.1 ((ofBool_getLsbD w i).trans h)

/-- A field of `len` bits above the `lo` low bits of a word is the low field of `len + lo` bits. -/
theorem extractLsb'_append_low {n hi lo : Nat} (w : BitVec n) (len : Nat) (h : hi = lo) :
    w.extractLsb' hi len ++ w.extractLsb' 0 lo = w.extractLsb' 0 (len + lo) :=
  BitVec.extractLsb'_append_extractLsb'_eq_extractLsb' (by omega)

theorem bitField_toNat {n : Nat} (w : BitVec n) (hi lo : Nat) :
    bitField w.toNat hi lo = (w.extractLsb' lo (hi - lo + 1)).toNat :=
  (BitVec.extractLsb'_toNat lo (hi - lo + 1) w).symm

/-- The bits from `n` up are 0 when the value is below `2^n`. -/
theorem clearAbove_iff_lt (n : Nat) (w : Word) : clearAbove n w = true ↔ w.toNat < 2 ^ n := by
  rw [clearAbove, beq_iff_eq, ← BitVec.toNat_inj, BitVec.toNat_ushiftRight,
    Nat.shiftRight_eq_div_pow, BitVec.toNat_ofNat, Nat.zero_mod, Nat.div_eq_zero_iff]
  simp

theorem clearAbove_iff_extractLsb' {n m : Nat} (h : n + m = 64) (w : Word) :
    clearAbove n w = true ↔ w.extractLsb' n m = 0#m := by
  have hlt : w.toNat / 2 ^ n < 2 ^ m :=
    Nat.div_lt_of_lt_mul (by rw [← Nat.pow_add, h]; exact w.isLt)
  rw [clearAbove, beq_iff_eq, ← BitVec.toNat_inj, ← BitVec.toNat_inj, BitVec.toNat_ushiftRight,
    BitVec.extractLsb'_toNat, Nat.shiftRight_eq_div_pow, Nat.mod_eq_of_lt hlt]
  simp

/-! ## The header (R91, R96) -/

/-- A header whose reserved bits are 0 is made of its fields. -/
theorem requestHeader_of_fields {h : HeaderWord} (hres : reservedHeaderClear h = true) :
    requestHeader (opOf h) (traceOf h) (tagOf h) = h := by
  simp only [reservedHeaderClear, Bool.and_eq_true, beq_iff_eq] at hres
  obtain ⟨hlow, hhigh⟩ := hres
  rw [requestHeader, ← hlow, ← hhigh, opOf, traceOf, tagOf, ofBool_getLsbD]
  simp only [extractLsb'_append_low]
  exact BitVec.extractLsb'_eq_self

/-! ## The flag words (R97) -/

theorem getLsbD_flagWord (b : Bool) : (flagWord b).getLsbD 0 = b := by
  cases b <;> rfl

theorem clearAbove_flagWord (b : Bool) : clearAbove 1 (flagWord b) = true := by
  cases b <;> rfl

theorem flagWord_of_clearAbove {w : Word} (h : clearAbove 1 w = true) :
    flagWord (w.getLsbD 0) = w := by
  rw [clearAbove_iff_extractLsb' (m := 63) rfl] at h
  rw [flagWord, ← h, ofBool_getLsbD, extractLsb'_append_low w 63 rfl]
  exact BitVec.extractLsb'_eq_self

/-! ## The mode words (R100, R101, R107, R108) -/

theorem kindOfField_fieldOfKind (kind : Option SurfaceKind) :
    kindOfField (fieldOfKind kind) = kind := by
  rcases kind with _ | ⟨⟨⟩⟩ <;> rfl

theorem pageOfField_fieldOfPage (page : Option PageSizeClass) :
    pageOfField (fieldOfPage page) = page := by
  rcases page with _ | ⟨⟨⟩⟩ <;> rfl

theorem fieldOfKind_kindOfField : ∀ f : BitVec 2, fieldOfKind (kindOfField f) = f := by decide

theorem fieldOfPage_pageOfField : ∀ f : BitVec 2, fieldOfPage (pageOfField f) = f := by decide

theorem modeWord_fields (kind : Option SurfaceKind) (page : Option PageSizeClass) :
    modeKind (modeWord kind page) = kind ∧ modePage (modeWord kind page) = page ∧
      clearAbove 4 (modeWord kind page) = true := by
  rw [modeKind, modePage, clearAbove_iff_extractLsb' (m := 60) rfl, modeWord]
  refine ⟨?_, ?_, BitVec.extractLsb'_append_eq_left⟩
  · rw [BitVec.extractLsb'_append_eq_of_add_le (by decide), BitVec.extractLsb'_append_eq_right,
      kindOfField_fieldOfKind]
  · rw [BitVec.extractLsb'_append_eq_of_add_le (by decide), BitVec.extractLsb'_append_eq_left,
      pageOfField_fieldOfPage]

theorem modeWord_of_clearAbove {w : Word} (h : clearAbove 4 w = true) :
    modeWord (modeKind w) (modePage w) = w := by
  rw [clearAbove_iff_extractLsb' (m := 60) rfl] at h
  rw [modeWord, modeKind, modePage, fieldOfKind_kindOfField, fieldOfPage_pageOfField, ← h]
  simp only [extractLsb'_append_low]
  exact BitVec.extractLsb'_eq_self

theorem encodeModeWord_fields (kind : Option SurfaceKind) (page : Option PageSizeClass)
    (eccOn : Bool) :
    modeKind (encodeModeWord kind page eccOn) = kind ∧
      modePage (encodeModeWord kind page eccOn) = page ∧
      (encodeModeWord kind page eccOn).getLsbD 4 = eccOn ∧
      clearAbove 5 (encodeModeWord kind page eccOn) = true := by
  rw [modeKind, modePage, clearAbove_iff_extractLsb' (m := 59) rfl, encodeModeWord]
  refine ⟨?_, ?_, getLsbD_of_extractLsb'_eq_ofBool ?_, BitVec.extractLsb'_append_eq_left⟩
  · rw [BitVec.extractLsb'_append_eq_of_add_le (by decide),
      BitVec.extractLsb'_append_eq_of_add_le (by decide), BitVec.extractLsb'_append_eq_right,
      kindOfField_fieldOfKind]
  · rw [BitVec.extractLsb'_append_eq_of_add_le (by decide),
      BitVec.extractLsb'_append_eq_of_add_le (by decide), BitVec.extractLsb'_append_eq_left,
      pageOfField_fieldOfPage]
  · rw [BitVec.extractLsb'_append_eq_of_add_le (by decide), BitVec.extractLsb'_append_eq_left]

theorem encodeModeWord_of_clearAbove {w : Word} (h : clearAbove 5 w = true) :
    encodeModeWord (modeKind w) (modePage w) (w.getLsbD 4) = w := by
  rw [clearAbove_iff_extractLsb' (m := 59) rfl] at h
  rw [encodeModeWord, modeKind, modePage, fieldOfKind_kindOfField, fieldOfPage_pageOfField,
    ofBool_getLsbD, ← h]
  simp only [extractLsb'_append_low]
  exact BitVec.extractLsb'_eq_self

/-! ## What each payload decodes to (R98 to R101) -/

theorem decodeConfigure_eq_ok_iff {tag : Tag} {trace : Bool} {ws : List Word} {i : Instr} :
    decodeConfigure tag trace ws = .ok i ↔
      trace = false ∧ ∃ c, i = .configure tag trace c ∧ configurationWords c = ws := by
  constructor
  · intro h
    unfold decodeConfigure at h
    split at h
    next => cases h
    next htrace =>
      split at h
      next =>
        split at h
        next hclear =>
          cases h
          obtain ⟨hswz, hecc⟩ := Bool.and_eq_true_iff.1 hclear
          refine ⟨Bool.eq_false_iff.2 htrace, _, rfl, ?_⟩
          simp only [configurationWords, flagWord_of_clearAbove hswz, flagWord_of_clearAbove hecc]
        next => cases h
      next => cases h
  · rintro ⟨rfl, c, rfl, rfl⟩
    simp only [decodeConfigure, configurationWords, clearAbove_flagWord, getLsbD_flagWord]
    rfl

theorem decodeDecode_eq_ok_iff {tag : Tag} {trace : Bool} {ws : List Word} {i : Instr} :
    decodeDecode tag trace ws = .ok i ↔
      ∃ a kind page, i = .decode tag trace a kind page ∧ [a, modeWord kind page] = ws := by
  constructor
  · intro h
    unfold decodeDecode at h
    split at h
    next =>
      split at h
      next hclear =>
        cases h
        exact ⟨_, _, _, rfl, by rw [modeWord_of_clearAbove hclear]⟩
      next => cases h
    next => cases h
  · rintro ⟨a, kind, page, rfl, rfl⟩
    obtain ⟨hkind, hpage, hclear⟩ := modeWord_fields kind page
    simp only [decodeDecode, hkind, hpage, hclear, if_true]

theorem decodeEncode_eq_ok_iff {tag : Tag} {trace : Bool} {ws : List Word} {i : Instr} :
    decodeEncode tag trace ws = .ok i ↔
      ∃ loc kind page eccOn, i = .encode tag trace loc kind page eccOn ∧
        locationWords loc ++ [encodeModeWord kind page eccOn] = ws := by
  constructor
  · intro h
    unfold decodeEncode at h
    split at h
    next =>
      split at h
      next hclear =>
        cases h
        exact ⟨_, _, _, _, rfl, by rw [encodeModeWord_of_clearAbove hclear]; rfl⟩
      next => cases h
    next => cases h
  · rintro ⟨loc, kind, page, eccOn, rfl, rfl⟩
    obtain ⟨hkind, hpage, hecc, hclear⟩ := encodeModeWord_fields kind page eccOn
    simp only [decodeEncode, locationWords, List.cons_append, List.nil_append, hkind, hpage, hecc,
      hclear, if_true]

/-! ## The decoder and the encoder -/

theorem decodeRequest_opConfigure {h : HeaderWord} (hres : reservedHeaderClear h = true)
    (hop : opOf h = opConfigure) (ws : List Word) :
    decodeRequest ⟨h, ws⟩ = decodeConfigure (tagOf h) (traceOf h) ws := by
  simp [decodeRequest, hres, hop]

theorem decodeRequest_opDecode {h : HeaderWord} (hres : reservedHeaderClear h = true)
    (hop : opOf h = opDecode) (ws : List Word) :
    decodeRequest ⟨h, ws⟩ = decodeDecode (tagOf h) (traceOf h) ws := by
  simp [decodeRequest, hres, hop, opDecode, opConfigure]

theorem decodeRequest_opEncode {h : HeaderWord} (hres : reservedHeaderClear h = true)
    (hop : opOf h = opEncode) (ws : List Word) :
    decodeRequest ⟨h, ws⟩ = decodeEncode (tagOf h) (traceOf h) ws := by
  simp [decodeRequest, hres, hop, opEncode, opDecode, opConfigure]

theorem decodeRequest_encodeRequest {i : Instr} (hwf : i.wellFormed = true) :
    decodeRequest (encodeRequest i) = .ok i := by
  cases i with
  | configure tag trace c =>
    obtain ⟨hop, htrace, htag, hres⟩ := Laws.requestHeader_fields opConfigure trace tag
    rw [encodeRequest, decodeRequest_opConfigure hres hop, htrace, htag, decodeConfigure_eq_ok_iff]
    exact ⟨by simpa [Instr.wellFormed] using hwf, c, rfl, rfl⟩
  | decode tag trace a kind page =>
    obtain ⟨hop, htrace, htag, hres⟩ := Laws.requestHeader_fields opDecode trace tag
    rw [encodeRequest, decodeRequest_opDecode hres hop, htrace, htag, decodeDecode_eq_ok_iff]
    exact ⟨a, kind, page, rfl, rfl⟩
  | encode tag trace loc kind page eccOn =>
    obtain ⟨hop, htrace, htag, hres⟩ := Laws.requestHeader_fields opEncode trace tag
    rw [encodeRequest, decodeRequest_opEncode hres hop, htrace, htag, decodeEncode_eq_ok_iff]
    exact ⟨loc, kind, page, eccOn, rfl, rfl⟩

theorem encodeRequest_of_decodeRequest {r : Request} {i : Instr} (h : decodeRequest r = .ok i) :
    encodeRequest i = r ∧ i.wellFormed = true := by
  obtain ⟨header, ws⟩ := r
  unfold decodeRequest at h
  split at h
  next => cases h
  next hres =>
    have hheader := requestHeader_of_fields (h := header) (by simpa using hres)
    split at h
    next hop =>
      obtain ⟨htrace, c, rfl, rfl⟩ := decodeConfigure_eq_ok_iff.1 h
      exact ⟨by rw [encodeRequest, ← hop, hheader], by rw [Instr.wellFormed, htrace]; rfl⟩
    next =>
      split at h
      next hop =>
        obtain ⟨a, kind, page, rfl, rfl⟩ := decodeDecode_eq_ok_iff.1 h
        exact ⟨by rw [encodeRequest, ← hop, hheader], rfl⟩
      next =>
        split at h
        next hop =>
          obtain ⟨loc, kind, page, eccOn, rfl, rfl⟩ := decodeEncode_eq_ok_iff.1 h
          exact ⟨by rw [encodeRequest, ← hop, hheader], rfl⟩
        next => cases h

/-- Each well-formed operation has one legal request, and each legal request one operation. -/
theorem decodeRequest_eq_ok_iff {r : Request} {i : Instr} :
    decodeRequest r = .ok i ↔ encodeRequest i = r ∧ i.wellFormed = true :=
  ⟨encodeRequest_of_decodeRequest, fun ⟨hr, hwf⟩ => hr ▸ decodeRequest_encodeRequest hwf⟩

/-! ## The illegal forms as numbers (R110) -/

theorem reservedHeaderClear_iff (h : HeaderWord) :
    reservedHeaderClear h = true ↔ bitField h.toNat 7 5 = 0 ∧ bitField h.toNat 31 16 = 0 := by
  simp only [reservedHeaderClear, Bool.and_eq_true, beq_iff_eq, bitField_toNat,
    ← BitVec.toNat_inj]
  rfl

theorem opOf_eq_iff (h : HeaderWord) (op : OpField) :
    opOf h = op ↔ bitField h.toNat 3 0 = op.toNat := by
  rw [bitField_toNat, ← BitVec.toNat_inj]
  rfl

theorem traceOf_eq_true_iff (h : HeaderWord) :
    traceOf h = true ↔ bitField h.toNat 4 4 = 1 := by
  rw [traceOf, BitVec.getLsbD_eq_extractLsb', beq_iff_eq, bitField_toNat, ← BitVec.toNat_inj]
  rfl

theorem decodeConfigure_error_iff (tag : Tag) (trace : Bool) (ws : List Word) :
    (∃ why, decodeConfigure tag trace ws = .error why) ↔
      trace = true ∨ ws.length ≠ 14 ∨ 2 ≤ (ws.getD 11 0).toNat ∨ 2 ≤ (ws.getD 12 0).toNat := by
  unfold decodeConfigure
  split
  next htrace => simp [htrace]
  next htrace =>
    split
    next =>
      simp only [clearAbove_iff_lt, Bool.and_eq_true]
      split <;> simp [htrace] <;> omega
    next hshape =>
      have hlen : ws.length ≠ 14 := fun h => by
        match ws, h with
        | [_, _, _, _, _, _, _, _, _, _, _, _, _, _], _ =>
          exact hshape _ _ _ _ _ _ _ _ _ _ _ _ _ _ rfl
      simp [hlen]

theorem decodeDecode_error_iff (tag : Tag) (trace : Bool) (ws : List Word) :
    (∃ why, decodeDecode tag trace ws = .error why) ↔
      ws.length ≠ 2 ∨ 16 ≤ (ws.getD 1 0).toNat := by
  unfold decodeDecode
  split
  next =>
    simp only [clearAbove_iff_lt]
    split <;> simp <;> omega
  next hshape =>
    have hlen : ws.length ≠ 2 := fun h => by
      obtain ⟨w0, w1, rfl⟩ := List.length_eq_two.1 h
      exact hshape w0 w1 rfl
    simp [hlen]

theorem decodeEncode_error_iff (tag : Tag) (trace : Bool) (ws : List Word) :
    (∃ why, decodeEncode tag trace ws = .error why) ↔
      ws.length ≠ 13 ∨ 32 ≤ (ws.getD 12 0).toNat := by
  unfold decodeEncode
  split
  next =>
    simp only [clearAbove_iff_lt]
    split <;> simp <;> omega
  next hshape =>
    have hlen : ws.length ≠ 13 := fun h => by
      match ws, h with
      | [_, _, _, _, _, _, _, _, _, _, _, _, _], _ => exact hshape _ _ _ _ _ _ _ _ _ _ _ _ _ rfl
    simp [hlen]

theorem illegalRequestForm_mk (h : HeaderWord) (ws : List Word) :
    illegalRequestForm ⟨h, ws⟩ ↔
      reservedHeaderClear h = false ∨
      (opOf h ≠ opConfigure ∧ opOf h ≠ opDecode ∧ opOf h ≠ opEncode) ∨
      (opOf h = opConfigure ∧ (traceOf h = true ∨ ws.length ≠ 14 ∨ 2 ≤ (ws.getD 11 0).toNat ∨
        2 ≤ (ws.getD 12 0).toNat)) ∨
      (opOf h = opDecode ∧ (ws.length ≠ 2 ∨ 16 ≤ (ws.getD 1 0).toNat)) ∨
      (opOf h = opEncode ∧ (ws.length ≠ 13 ∨ 32 ≤ (ws.getD 12 0).toNat)) := by
  have hop : opConfigure.toNat = 1 ∧ opDecode.toNat = 2 ∧ opEncode.toNat = 3 := ⟨rfl, rfl, rfl⟩
  obtain ⟨h1, h2, h3⟩ := hop
  rw [← Bool.not_eq_true, reservedHeaderClear_iff]
  simp only [illegalRequestForm, opOf_eq_iff, traceOf_eq_true_iff, h1, h2, h3, ne_eq]
  omega

theorem decodeRequest_error_iff (r : Request) :
    (∃ why, decodeRequest r = .error why) ↔ illegalRequestForm r := by
  obtain ⟨h, ws⟩ := r
  rw [illegalRequestForm_mk]
  rcases hres : reservedHeaderClear h with _ | _
  · simp [decodeRequest, hres]
  by_cases hconf : opOf h = opConfigure
  · rw [decodeRequest_opConfigure hres hconf, decodeConfigure_error_iff]
    simp [hconf, opConfigure, opDecode, opEncode]
  by_cases hdec : opOf h = opDecode
  · rw [decodeRequest_opDecode hres hdec, decodeDecode_error_iff]
    simp [hdec, opConfigure, opDecode, opEncode]
  by_cases henc : opOf h = opEncode
  · rw [decodeRequest_opEncode hres henc, decodeEncode_error_iff]
    simp [henc, opConfigure, opDecode, opEncode]
  · simp [decodeRequest, hres, hconf, hdec, henc]

/-! ## The response header (R92) -/

theorem responseHeader_fields (r : Response) :
    (responseHeader r).extractLsb' 0 4 = statusCode r.status ∧
      (responseHeader r).extractLsb' 4 4 = r.op ∧
      (responseHeader r).extractLsb' 8 8 = r.tag ∧
      (responseHeader r).extractLsb' 16 16 = 0#16 := by
  rw [responseHeader]
  refine ⟨?_, ?_, ?_, BitVec.extractLsb'_append_eq_left⟩
  · rw [BitVec.extractLsb'_append_eq_of_add_le (by decide),
      BitVec.extractLsb'_append_eq_of_add_le (by decide), BitVec.extractLsb'_append_eq_right]
  · rw [BitVec.extractLsb'_append_eq_of_add_le (by decide),
      BitVec.extractLsb'_append_eq_of_add_le (by decide), BitVec.extractLsb'_append_eq_left]
  · rw [BitVec.extractLsb'_append_eq_of_add_le (by decide), BitVec.extractLsb'_append_eq_left]

/-! ## Taking a request of illegal form (R110, R374) -/

theorem step_of_illegal {s : State} {r : Request} {rest : List Input}
    (h : nextEvent s = .accept r rest) (hr : illegalRequestForm r) :
    ∃ why, step s = .next (acceptIllegal r why (fetched s rest)) := by
  obtain ⟨why, hd⟩ := (decodeRequest_error_iff r).2 hr
  exact ⟨why, by simp only [step, h, hd]⟩

/-! ## The obligations on the encoding -/

/-- Settles O2. -/
theorem decodeInvertsEncode : Obligations.DecodeInvertsEncode :=
  fun _ hwf => decodeRequest_eq_ok_iff.2 ⟨rfl, hwf⟩

/-- Settles O3. -/
theorem encodeInvertsDecode : Obligations.EncodeInvertsDecode :=
  fun _ _ => decodeRequest_eq_ok_iff.1

/-- Settles O4, by the header's fields and then the length and the last words of each payload. -/
theorem decoderRejectsExactlyIllegalForms : Obligations.DecoderRejectsExactlyIllegalForms :=
  decodeRequest_error_iff

/-- Settles O5: the decoder names a reason for every illegal form. -/
theorem illegalRequestIsAnswered : Obligations.IllegalRequestIsAnswered := by
  intro s r rest h hr
  obtain ⟨why, hstep⟩ := step_of_illegal h hr
  exact ⟨.illegal (opOf r.header) (tagOf r.header) why, hstep⟩

/-- Settles O1: the four requests are the words that the encoder writes. -/
theorem requestWordsDecode : Obligations.RequestWordsDecode :=
  ⟨decodeRequest_eq_ok_iff.2 ⟨rfl, rfl⟩, decodeRequest_eq_ok_iff.2 ⟨rfl, rfl⟩,
    decodeRequest_eq_ok_iff.2 ⟨rfl, rfl⟩, decodeRequest_eq_ok_iff.2 ⟨rfl, rfl⟩⟩

/-- Settles O7. -/
theorem responseHeaderFields : Obligations.ResponseHeaderFields := by
  refine ⟨fun r => ?_, rfl, rfl, rfl, rfl, rfl, rfl, rfl⟩
  obtain ⟨hstatus, hop, htag, hzero⟩ := responseHeader_fields r
  simp [bitField_toNat, hstatus, hop, htag, hzero]

end Sys2Proof

/-! PROOFS. The answers of the three operations: what the trace bit adds, the stage functions in core
arithmetic, and the checks of a DECODE and an ENCODE in their order
(spec/41_address_interleave_decoder.md R171, R172; spec/47_address_interleave_encoder.md R301 to
R309). -/

namespace Sys2Proof.Machine

/-! ## An answer as a function of the trace bit (R94, R106) -/

/-- An answer is an error that the trace bit does not change, or OK with `n` words of its own and
twelve more when the trace is asked for. -/
def AnswersTraced (n : Nat) (reply : Bool → Reply) : Prop :=
  (∃ st, st ≠ .ok ∧ ∀ trace, reply trace = raise st) ∨
    ∃ ws t : List Word, ws.length = n ∧ t.length = 12 ∧
      ∀ trace, reply trace = respond .ok (ws ++ if trace then t else [])

section AnswersTraced

variable {n : Nat} {reply : Bool → Reply}

theorem AnswersTraced.of_raise (st : Status) (hst : st ≠ .ok)
    (h : ∀ trace, reply trace = raise st) : AnswersTraced n reply :=
  .inl ⟨st, hst, h⟩

theorem AnswersTraced.true_eq_append (h : AnswersTraced n reply) :
    ∃ t : List Word, reply true = ⟨(reply false).status, (reply false).payload ++ t⟩ ∧
      t.length = if (reply false).status = .ok then 12 else 0 := by
  rcases h with ⟨st, hst, herr⟩ | ⟨ws, t, -, ht, hok⟩
  · exact ⟨[], by rw [herr, herr]; rfl, by simp [herr, hst]⟩
  · exact ⟨t, by simp [hok, respond], by simp [hok, ht]⟩

theorem AnswersTraced.length_payload (h : AnswersTraced n reply) (trace : Bool) :
    (reply trace).payload.length =
      if (reply trace).status = .ok then (if trace then n + 12 else n) else 0 := by
  rcases h with ⟨st, hst, herr⟩ | ⟨ws, t, hws, ht, hok⟩
  · simp [herr, hst]
  · cases trace <;> simp [hok, hws, ht]

theorem AnswersTraced.payload_eq_nil (h : AnswersTraced n reply) {trace : Bool}
    (hst : (reply trace).status ≠ .ok) : (reply trace).payload = [] := by
  rw [← List.length_eq_zero_iff, h.length_payload, if_neg hst]

end AnswersTraced

/-! ## Stage functions in core arithmetic -/

theorem tileRemap_eq (P : Params) (table : Fin 32 → Fin 32) (a : Word) :
    tileRemap P table a = BitVec.ofNat 64 (insertField a.toNat P.tileFieldLsb 5
      (table (Fin.ofNat 32 (a.toNat >>> P.tileFieldLsb % 32))).val) := by
  have hwidth : P.tileFieldLsb + 4 - P.tileFieldLsb + 1 = 5 := by omega
  simp only [tileRemap, bitField, hwidth, Nat.reducePow]

theorem tileLookup_eq (P : Params) (a : Word) (k : SurfaceKind) :
    tileLookup P a k = match k with
      | .tiled =>
        BitVec.ofNat 64 (insertField a.toNat P.tileFieldLsb 5
          (P.kindTileTable (Fin.ofNat 32 (a.toNat >>> P.tileFieldLsb % 32))).val)
      | _ => a := by
  cases k with
  | tiled => exact tileRemap_eq P P.kindTileTable a
  | linear => rfl
  | linearUnswizzled => rfl

theorem tileLookupInv_eq (P : Params) (r : Word) (k : SurfaceKind) :
    tileLookupInv P r k = match k with
      | .tiled =>
        BitVec.ofNat 64 (insertField r.toNat P.tileFieldLsb 5
          (P.kindTileTableInv (Fin.ofNat 32 (r.toNat >>> P.tileFieldLsb % 32))).val)
      | _ => r := by
  cases k with
  | tiled => exact tileRemap_eq P P.kindTileTableInv r
  | linear => rfl
  | linearUnswizzled => rfl

theorem l2Hash_eq (c : Configuration) (pol : Policy) (q : Nat) :
    l2Hash c pol q = (q / 2 ^ cfgS c, match pol.l2Combine with
      | .xor => q % 2 ^ cfgS c ^^^ pol.l2Fold (q / 2 ^ cfgS c)
      | .addMod => (q % 2 ^ cfgS c + pol.l2Fold (q / 2 ^ cfgS c)) % 2 ^ cfgS c) := by
  cases h : pol.l2Combine <;> simp [l2Hash, combineFwd, Nat.shiftRight_eq_div_pow, h]

theorem l2Unhash_eq (c : Configuration) (pol : Policy) (t v : Nat) :
    l2Unhash c pol t v = t * 2 ^ cfgS c ||| match pol.l2Combine with
      | .xor => v ^^^ pol.l2Fold t
      | .addMod => (v + 2 ^ cfgS c - pol.l2Fold t % 2 ^ cfgS c) % 2 ^ cfgS c := by
  cases h : pol.l2Combine <;> simp [l2Unhash, combineInv, Nat.shiftLeft_eq, h]

theorem xbarCompose_eq (c : Configuration) (t v : Nat) :
    xbarCompose c t v = t * 2 ^ cfgS c ||| v := by
  rw [xbarCompose, Nat.shiftLeft_eq]

/-! ## The values of an ENCODE in core arithmetic (R304) -/

/-- The values of an ENCODE, each by the rule of its inverse stage (R273 to R275, R243, R215, R214,
R194, R192), whether or not an address overflows. -/
def encodeValues (P : Params) (pol : Policy) (ks : KsEntry) (c : Configuration)
    (l : PhysicalLocation) (k : SurfaceKind) : Encoded :=
  let nb := c.dramBankCount.toNat
  let ext := c.extBankBits.toNat
  let pib := c.partitionInterleaveBytes.toNat
  let pc := c.partitionCount.toNat
  let n := c.l2SetBits.toNat
  let sw := bankHashOf pol.bankHash l.rowId.toNat
  let tmp := P.bankPermInv nb ext (l.bankId.toNat ^^^ sw % nb) (l.rankId.toNat ^^^ sw / nb)
  let bytes := l.rowId.toNat * c.dramPageSizeBytes.toNat +
    l.columnId.toNat * c.columnGranuleSizeBytes.toNat
  let group := bytes / pib
  let offset := bytes % pib
  let bankAddress := group * (nb * 2 ^ ext) + tmp
  let ecc := bankRotateInv P c bankAddress
  let xbar := if c.eccEnabled then P.eccExpand ecc else ecc
  let fold := pol.l2Fold (xbar / 2 ^ n)
  let low := match pol.l2Combine with
    | .xor => xbar % 2 ^ n ^^^ fold
    | .addMod => (xbar % 2 ^ n + 2 ^ n - fold % 2 ^ n) % 2 ^ n
  let quotient := xbar / 2 ^ n * 2 ^ n ||| low
  let remainder := if isPow2 pc then l.partitionId.toNat
    else (l.partitionId.toNat + pc - pol.partCorr quotient % pc) % pc
  let ksa := (quotient * pc + remainder) * pib + offset
  let raw := ks.hashInv (BitVec.ofNat 64 ksa)
  { byteOffset := match k with
      | .tiled =>
        BitVec.ofNat 64 (insertField raw.toNat P.tileFieldLsb 5
          (P.kindTileTableInv (Fin.ofNat 32 (raw.toNat >>> P.tileFieldLsb % 32))).val)
      | _ => raw
    trace :=
      { rawAddress := raw.toNat
        kindSwizzledAddress := ksa
        offset := offset
        quotient := quotient
        remainder := remainder
        l2Offset := offset % P.l2SectorBytes
        xbarRawAddress := xbar
        eccAddress := ecc
        bankAddress := bankAddress
        rawBankGroup := group
        tmp := tmp
        bankHash := sw } }

/-- The inverse stages give these values where none of the three addresses of R309 overflows. -/
theorem encodePipeline_eq {P : Params} {pol : Policy} {ks : KsEntry} {c : Configuration}
    {l : PhysicalLocation} {k : SurfaceKind} {v : Encoded}
    (hval : encodeValues P pol ks c l k = v) :
    encodePipeline P pol ks c l k =
      if v.trace.bankAddress < 2 ^ 64 ∧ v.trace.xbarRawAddress < 2 ^ 64 ∧
        v.trace.kindSwizzledAddress < 2 ^ 64 then some v else none := by
  have hsteps : encodePipeline P pol ks c l k =
      if 2 ^ 64 ≤ v.trace.bankAddress then none
      else if 2 ^ 64 ≤ v.trace.xbarRawAddress then none
      else if 2 ^ 64 ≤ v.trace.kindSwizzledAddress then none
      else some v := by
    subst hval
    simp only [encodePipeline, l2Unhash_eq, Nat.shiftRight_eq_div_pow, cfgG_eq]
    simp only [tileLookupInv_eq]
    rfl
  simp only [hsteps, ← Nat.not_le]
  split_ifs <;> simp_all

/-! ## CONFIGURE (R131, R144, R145) -/

theorem configureReply_payload (P : Params) (trace : Bool) (c : Configuration) :
    (configureReply P trace c).payload = [] := by
  cases trace <;> cases h : configOk P c <;> simp [configureReply, h]

/-- A CONFIGURE that fails leaves no engine, or is one with `trace = 1` and leaves the engine it
finds. -/
theorem configureEngine_of_status_ne_ok {P : Params} {trace : Bool} {c : Configuration}
    (h : (configureReply P trace c).status ≠ .ok) (unspecified : Configuration) (e : Engine) :
    if (configureReply P trace c).status = .configUnsupported
    then (configureEngine P trace c unspecified e).valid = false
    else configureEngine P trace c unspecified e = e := by
  cases trace with
  | true => simp [configureReply, configureEngine]
  | false =>
    cases hok : configOk P c with
    | true => simp [configureReply, hok] at h
    | false => simp [configureReply, configureEngine, hok]

/-! ## The checks of a DECODE, in their order (R171) -/

section DecodeReply

variable {P : Params} {e : Engine} (trace : Bool) (a : Word)

theorem decodeReply_of_invalid (hv : e.valid = false) (kind : Option SurfaceKind)
    (page : Option PageSizeClass) :
    decodeReply P e trace a kind page = raise .configUnsupported := by
  simp [decodeReply, hv]

theorem decodeReply_of_no_kind (hv : e.valid = true) (page : Option PageSizeClass) :
    decodeReply P e trace a none page = raise .invalidSurfaceKind := by
  simp [decodeReply, hv]

theorem decodeReply_of_no_page (hv : e.valid = true) (k : SurfaceKind) :
    decodeReply P e trace a (some k) none = raise .invalidPageSize := by
  simp [decodeReply, hv]

theorem decodeReply_of_no_entry (hv : e.valid = true) {k : SurfaceKind} {p : PageSizeClass}
    (hks : lookupKs P e.cfg p k = none) :
    decodeReply P e trace a (some k) (some p) = raise .configUnsupported := by
  simp [decodeReply, hv, hks]

theorem decodeReply_of_no_policy (hv : e.valid = true) (hpol : resolvePolicy P e.cfg = none)
    (k : SurfaceKind) (p : PageSizeClass) :
    decodeReply P e trace a (some k) (some p) = raise .configUnsupported := by
  cases hks : lookupKs P e.cfg p k <;> simp [decodeReply, hv, hks, hpol]

theorem decodeReply_of_entry (hv : e.valid = true) {k : SurfaceKind} {p : PageSizeClass}
    {ks : KsEntry} {pol : Policy} (hks : lookupKs P e.cfg p k = some ks)
    (hpol : resolvePolicy P e.cfg = some pol) :
    decodeReply P e trace a (some k) (some p) =
      respond .ok (decodePayload e.cfg trace (decodePipeline P pol ks e.cfg a k)) := by
  simp [decodeReply, hv, hks, hpol]

theorem decodeReply_answersTraced (P : Params) (e : Engine) (a : Word) (kind : Option SurfaceKind)
    (page : Option PageSizeClass) :
    AnswersTraced 12 fun trace => decodeReply P e trace a kind page := by
  rcases hv : e.valid with _ | _
  · exact .of_raise _ (by decide) fun trace => decodeReply_of_invalid trace a hv kind page
  rcases kind with _ | k
  · exact .of_raise _ (by decide) fun trace => decodeReply_of_no_kind trace a hv page
  rcases page with _ | p
  · exact .of_raise _ (by decide) fun trace => decodeReply_of_no_page trace a hv k
  rcases hks : lookupKs P e.cfg p k with _ | ks
  · exact .of_raise _ (by decide) fun trace => decodeReply_of_no_entry trace a hv hks
  rcases hpol : resolvePolicy P e.cfg with _ | pol
  · exact .of_raise _ (by decide) fun trace => decodeReply_of_no_policy trace a hv hpol k p
  · exact .inr ⟨_, _, rfl, rfl, fun trace => decodeReply_of_entry trace a hv hks hpol⟩

end DecodeReply

/-! ## The checks of an ENCODE, in their order (R301) -/

theorem inRange_iff (c : Configuration) (l : PhysicalLocation) :
    inRange c l = true ↔ l.partitionId.toNat < c.partitionCount.toNat ∧
      l.bankId.toNat < c.dramBankCount.toNat ∧ l.rankId.toNat < 2 ^ c.extBankBits.toNat ∧
      l.columnId.toNat < c.dramPageSizeBytes.toNat / c.columnGranuleSizeBytes.toNat := by
  simp only [inRange, Bool.and_eq_true, decide_eq_true_eq, and_assoc]
  rfl

section EncodeReply

variable {P : Params} {e : Engine} (trace : Bool) (l : PhysicalLocation) {eccOn : Bool}

theorem encodeReply_of_invalid (hv : e.valid = false) (kind : Option SurfaceKind)
    (page : Option PageSizeClass) (eccOn : Bool) :
    encodeReply P e trace l kind page eccOn = raise .configUnsupported := by
  simp [encodeReply, hv]

theorem encodeReply_of_ecc_ne (hv : e.valid = true) (hecc : eccOn ≠ e.cfg.eccEnabled)
    (kind : Option SurfaceKind) (page : Option PageSizeClass) :
    encodeReply P e trace l kind page eccOn = raise .inconsistentEccState := by
  simp [encodeReply, hv, hecc]

theorem encodeReply_of_no_kind (hv : e.valid = true) (hecc : eccOn = e.cfg.eccEnabled)
    (page : Option PageSizeClass) :
    encodeReply P e trace l none page eccOn = raise .invalidSurfaceKind := by
  simp [encodeReply, hv, hecc]

theorem encodeReply_of_no_page (hv : e.valid = true) (hecc : eccOn = e.cfg.eccEnabled)
    (k : SurfaceKind) :
    encodeReply P e trace l (some k) none eccOn = raise .invalidPageSize := by
  simp [encodeReply, hv, hecc]

theorem encodeReply_of_no_entry (hv : e.valid = true) (hecc : eccOn = e.cfg.eccEnabled)
    {k : SurfaceKind} {p : PageSizeClass} (hks : lookupKs P e.cfg p k = none) :
    encodeReply P e trace l (some k) (some p) eccOn = raise .configUnsupported := by
  simp [encodeReply, hv, hecc, hks]

theorem encodeReply_of_no_policy (hv : e.valid = true) (hecc : eccOn = e.cfg.eccEnabled)
    (hpol : resolvePolicy P e.cfg = none) (k : SurfaceKind) (p : PageSizeClass) :
    encodeReply P e trace l (some k) (some p) eccOn = raise .configUnsupported := by
  cases hks : lookupKs P e.cfg p k <;> simp [encodeReply, hv, hecc, hks, hpol]

/-- The range checks of R303 and the overflow checks of R309, the last ones. -/
theorem encodeReply_of_entry (hv : e.valid = true) (hecc : eccOn = e.cfg.eccEnabled)
    {k : SurfaceKind} {p : PageSizeClass} {ks : KsEntry} {pol : Policy} {v : Encoded}
    (hks : lookupKs P e.cfg p k = some ks) (hpol : resolvePolicy P e.cfg = some pol)
    (hval : encodeValues P pol ks e.cfg l k = v) :
    encodeReply P e trace l (some k) (some p) eccOn =
      if l.partitionId.toNat < e.cfg.partitionCount.toNat ∧
          l.bankId.toNat < e.cfg.dramBankCount.toNat ∧
          l.rankId.toNat < 2 ^ e.cfg.extBankBits.toNat ∧
          l.columnId.toNat <
            e.cfg.dramPageSizeBytes.toNat / e.cfg.columnGranuleSizeBytes.toNat ∧
          v.trace.bankAddress < 2 ^ 64 ∧ v.trace.xbarRawAddress < 2 ^ 64 ∧
          v.trace.kindSwizzledAddress < 2 ^ 64
      then respond .ok (encodePayload trace k p v)
      else raise .invalidLocation := by
  split_ifs with hok
  · obtain ⟨hpart, hbank, hrank, hcol, hfits⟩ := hok
    have hin := (inRange_iff e.cfg l).2 ⟨hpart, hbank, hrank, hcol⟩
    have hpipe := (encodePipeline_eq hval).trans (if_pos hfits)
    simp [encodeReply, hv, hecc, hks, hpol, hin, hpipe]
  · cases hin : inRange e.cfg l with
    | false => simp [encodeReply, hv, hecc, hks, hpol, hin]
    | true =>
      obtain ⟨hpart, hbank, hrank, hcol⟩ := (inRange_iff e.cfg l).1 hin
      have hpipe := (encodePipeline_eq hval).trans
        (if_neg fun hfits => hok ⟨hpart, hbank, hrank, hcol, hfits⟩)
      simp [encodeReply, hv, hecc, hks, hpol, hin, hpipe]

theorem encodeReply_answersTraced (P : Params) (e : Engine) (l : PhysicalLocation)
    (kind : Option SurfaceKind) (page : Option PageSizeClass) (eccOn : Bool) :
    AnswersTraced 2 fun trace => encodeReply P e trace l kind page eccOn := by
  rcases hv : e.valid with _ | _
  · exact .of_raise _ (by decide) fun trace => encodeReply_of_invalid trace l hv kind page eccOn
  by_cases hecc : eccOn = e.cfg.eccEnabled
  case neg =>
    exact .of_raise _ (by decide) fun trace => encodeReply_of_ecc_ne trace l hv hecc kind page
  rcases kind with _ | k
  · exact .of_raise _ (by decide) fun trace => encodeReply_of_no_kind trace l hv hecc page
  rcases page with _ | p
  · exact .of_raise _ (by decide) fun trace => encodeReply_of_no_page trace l hv hecc k
  rcases hks : lookupKs P e.cfg p k with _ | ks
  · exact .of_raise _ (by decide) fun trace => encodeReply_of_no_entry trace l hv hecc hks
  rcases hpol : resolvePolicy P e.cfg with _ | pol
  · exact .of_raise _ (by decide) fun trace => encodeReply_of_no_policy trace l hv hecc hpol k p
  have hentry := fun trace => encodeReply_of_entry trace l hv hecc hks hpol rfl
  split_ifs at hentry
  case pos => exact .inr ⟨_, _, rfl, rfl, hentry⟩
  case neg => exact .of_raise _ (by decide) hentry

end EncodeReply

/-! ## The obligations on the operations -/

/-- Settles O19: an answer as a function of the trace bit, for both operations. -/
theorem traceOnlyAppends : Obligations.TraceOnlyAppends :=
  ⟨fun P e a kind page => (decodeReply_answersTraced P e a kind page).true_eq_append,
    fun P e l kind page eccOn =>
      (encodeReply_answersTraced P e l kind page eccOn).true_eq_append⟩

/-- Settles O13, check by check; a valid engine has a policy (R132 item 11). -/
theorem decodeStatusFollowsCheckOrder : Obligations.DecodeStatusFollowsCheckOrder := by
  intro P e trace a kind page he
  refine ⟨?_, (decodeReply_answersTraced P e a kind page).length_payload trace⟩
  rcases hv : e.valid with _ | _
  · simp [decodeReply_of_invalid trace a hv]
  rcases kind with _ | k
  · simp [decodeReply_of_no_kind trace a hv]
  rcases page with _ | p
  · simp [decodeReply_of_no_page trace a hv]
  change _ = if true = false then _ else if (lookupKs P e.cfg p k).isSome = true then _ else _
  rcases hks : lookupKs P e.cfg p k with _ | ks
  · simp [decodeReply_of_no_entry trace a hv hks]
  · obtain ⟨pol, hpol⟩ := resolvePolicy_isSome (he hv)
    simp [decodeReply_of_entry trace a hv hks hpol]

/-- Settles O29, check by check; a valid engine has a policy (R132 item 11). -/
theorem encodeStatusFollowsCheckOrder : Obligations.EncodeStatusFollowsCheckOrder := by
  intro P e trace l kind page eccOn he
  refine ⟨?_, (encodeReply_answersTraced P e l kind page eccOn).length_payload trace⟩
  rcases hv : e.valid with _ | _
  · simp [encodeReply_of_invalid trace l hv]
  rw [if_neg (by decide)]
  by_cases hecc : eccOn = e.cfg.eccEnabled
  case neg => simp [encodeReply_of_ecc_ne trace l hv hecc, hecc]
  rw [if_neg (not_not_intro hecc)]
  rcases kind with _ | k
  · simp [encodeReply_of_no_kind trace l hv hecc]
  rcases page with _ | p
  · simp [encodeReply_of_no_page trace l hv hecc]
  change if lookupKs P e.cfg p k = none then _ else _
  rcases hks : lookupKs P e.cfg p k with _ | ks
  · simp [encodeReply_of_no_entry trace l hv hecc hks]
  obtain ⟨pol, hpol⟩ := resolvePolicy_isSome (he hv)
  have hreply := encodeReply_of_entry trace l hv hecc hks hpol rfl
  rw [if_neg (by simp)]
  split_ifs with hin
  case neg =>
    rw [hreply, if_neg]
    · rfl
    · rintro ⟨hpart, hbank, hrank, hcol, -⟩
      exact hin ⟨hpart, hbank, hrank, hcol⟩
  case pos =>
    obtain ⟨hpart, hbank, hrank, hcol⟩ := hin
    refine ⟨pol, hpol, ?_⟩
    change _ = if 2 ^ 64 ≤ (encodeValues P pol ks e.cfg l k).trace.bankAddress ∨
      2 ^ 64 ≤ (encodeValues P pol ks e.cfg l k).trace.xbarRawAddress ∨
      2 ^ 64 ≤ (encodeValues P pol ks e.cfg l k).trace.kindSwizzledAddress then _ else _
    simp only [hreply, hpart, hbank, hrank, hcol, true_and, ← not_le, ← not_or, ite_not,
      apply_ite Reply.status, raise_status, respond_status]

/-- Settles O37, by the operation; what fails has no payload, whatever the trace bit. -/
theorem failedRequestKeepsEngine : Obligations.FailedRequestKeepsEngine := by
  intro i s
  cases i with
  | configure tag trace c =>
    exact ⟨_, _, exec_configure tag trace c s, rfl, rfl, rfl, rfl, rfl, rfl, rfl, fun hst =>
      ⟨configureReply_payload Config.params trace c, configureEngine_of_status_ne_ok hst _ s.eng⟩⟩
  | decode tag trace a kind page =>
    exact ⟨_, _, exec_decode tag trace a kind page s, rfl, rfl, rfl, rfl, rfl, rfl, rfl, fun hst =>
      ⟨(decodeReply_answersTraced Config.params s.eng a kind page).payload_eq_nil hst, rfl⟩⟩
  | encode tag trace l kind page eccOn =>
    exact ⟨_, _, exec_encode tag trace l kind page eccOn s, rfl, rfl, rfl, rfl, rfl, rfl, rfl,
      fun hst => ⟨(encodeReply_answersTraced Config.params s.eng l kind page eccOn).payload_eq_nil
        hst, rfl⟩⟩

/-- Settles O11, by the trace bit and `configOk`. -/
theorem configureCompletes : Obligations.ConfigureCompletes := by
  refine ⟨fun tag c s => ⟨Config.unspecifiedCfg s.tick, ?_⟩, fun tag c s => rfl⟩
  rw [exec_configure]
  cases h : configOk Config.params c <;> simp [configureReply, configureEngine, h] <;> rfl

/-- Settles O12: the policy's entry or none, and the values of the pipeline. -/
theorem decodeCompletes : Obligations.DecodeCompletes := by
  intro tag trace a k p s hv
  rw [exec_decode]
  rcases hks : lookupKs Config.params s.eng.cfg p k with _ | ks
  · rw [decodeReply_of_no_entry trace a hv hks]
    rfl
  rcases hpol : resolvePolicy Config.params s.eng.cfg with _ | pol
  · rw [decodeReply_of_no_policy trace a hv hpol]
    rfl
  · rw [decodeReply_of_entry trace a hv hks hpol]
    simp only [decodePipeline, tileLookup_eq, l2Hash_eq, xbarCompose_eq, cfgG_eq]
    rfl

/-- Settles O28: the policy's entry or none, and the checks and values of the inverse pipeline. -/
theorem encodeCompletes : Obligations.EncodeCompletes := by
  intro tag trace l k p eccOn s hv hecc
  rw [exec_encode]
  rcases hks : lookupKs Config.params s.eng.cfg p k with _ | ks
  · rw [encodeReply_of_no_entry trace l hv hecc hks]
    rfl
  rcases hpol : resolvePolicy Config.params s.eng.cfg with _ | pol
  · rw [encodeReply_of_no_policy trace l hv hecc hpol]
    rfl
  · rw [encodeReply_of_entry trace l hv hecc hks hpol rfl, accept, apply_ite (responseTo _)]
    rfl

end Sys2Proof.Machine

/-! PROOFS. generation_policy_mux: the chain of a generation and what `resolve` finds on it
(spec/40_generation_policy_mux.md R134), the twelve items of `configOk` (R132), and the run of one
CONFIGURE (R144, R145, R382). -/

namespace Sys2Proof.Machine

/-! ## The chain of a generation (R134) -/

section Chain

variable {P : Params} {g g' : Nat}

theorem ancestor_zero (P : Params) (g : Nat) : ancestor P g 0 = some g := rfl

theorem ancestor_one (P : Params) (g : Nat) : ancestor P g 1 = P.genParent g := rfl

theorem ancestor_add (P : Params) (g m n : Nat) :
    ancestor P g (m + n) = (ancestor P g m).bind (ancestor P · n) := by
  induction n with
  | zero => exact (Option.bind_fun_some _).symm
  | succ n ih => rw [← Nat.add_assoc, ancestor, ih, Option.bind_assoc]; rfl

/-- The chain goes on from the parent. -/
theorem ancestor_succ_of_parent {p : Nat} (h : P.genParent g = some p) (n : Nat) :
    ancestor P g (n + 1) = ancestor P p n := by
  rw [Nat.add_comm, ancestor_add, ancestor_one, h, Option.bind_some]

theorem ancestor_succ_of_no_parent (h : P.genParent g = none) (n : Nat) :
    ancestor P g (n + 1) = none := by
  rw [Nat.add_comm, ancestor_add, ancestor_one, h, Option.bind_none]

theorem ancestor_lt_numGenerations (hg : g < P.numGenerations) {n : Nat}
    (h : ancestor P g n = some g') : g' < P.numGenerations := by
  cases n with
  | zero => cases h; exact hg
  | succ n =>
    obtain ⟨a, -, ha⟩ := Option.bind_eq_some_iff.1 h
    exact P.genParent_lt a g' ha

/-- Each step along the chain goes down in rank. -/
theorem rank_ancestor {rank : Nat → Nat}
    (hrank : ∀ g p, P.genParent g = some p → rank p < rank g) {n : Nat}
    (h : ancestor P g n = some g') : rank g' + n ≤ rank g := by
  induction n generalizing g' with
  | zero => cases h; exact le_rfl
  | succ n ih =>
    obtain ⟨a, ha, hpar⟩ := Option.bind_eq_some_iff.1 h
    have hup := ih ha
    have hstep := hrank a g' hpar
    omega

/-- No generation comes twice on a chain. -/
theorem ancestor_injective {m n : Nat} (hm : ancestor P g m = some g')
    (hn : ancestor P g n = some g') : m = n := by
  obtain ⟨rank, hrank⟩ := P.genParent_acyclic
  wlog hle : m ≤ n generalizing m n
  · exact (this hn hm (Nat.le_of_not_le hle)).symm
  obtain ⟨k, rfl⟩ := Nat.exists_eq_add_of_le hle
  rw [ancestor_add, hm, Option.bind_some] at hn
  have hdown := rank_ancestor hrank hn
  omega

/-- By the pigeonhole: the chain has at most `NUM_GENERATIONS` members. -/
theorem ancestor_index_lt (hg : g < P.numGenerations) {n : Nat} (h : ancestor P g n = some g') :
    n < P.numGenerations := by
  have hmember : ∀ i ∈ Finset.range (n + 1), ∃ a ∈ Finset.range P.numGenerations,
      ancestor P g i = some a := by
    intro i hi
    obtain ⟨k, rfl⟩ := Nat.exists_eq_add_of_le (Finset.mem_range_succ_iff.1 hi)
    rw [ancestor_add] at h
    obtain ⟨a, ha, -⟩ := Option.bind_eq_some_iff.1 h
    exact ⟨a, Finset.mem_range.2 (ancestor_lt_numGenerations hg ha), ha⟩
  choose! member hrange hmem using hmember
  have hcard := Finset.card_le_card_of_injOn member hrange fun i hi j hj hij =>
    ancestor_injective (hmem i hi) (hij ▸ hmem j hj)
  rwa [Finset.card_range, Finset.card_range] at hcard

end Chain

/-! ## What `resolve` finds on the chain (R134) -/

section Resolve

variable {α : Type} (P : Params) (slot : Nat → Option α)

theorem resolveFrom_eq_none_iff (fuel g : Nat) :
    resolveFrom P.genParent slot fuel g = none ↔
      ∀ n < fuel, ∀ g', ancestor P g n = some g' → slot g' = none := by
  induction fuel generalizing g with
  | zero => simp [resolveFrom]
  | succ fuel ih =>
    rw [Nat.forall_lt_succ_left, resolveFrom]
    cases hslot : slot g with
    | some e => simp [ancestor_zero, hslot]
    | none =>
      cases hpar : P.genParent g with
      | none => simp [ancestor_zero, hslot, ancestor_succ_of_no_parent hpar]
      | some p => simp [ancestor_zero, hslot, ancestor_succ_of_parent hpar, ih]

theorem resolveFrom_eq_some_iff (fuel g : Nat) (e : α) :
    resolveFrom P.genParent slot fuel g = some e ↔
      ∃ n < fuel, ∃ g', ancestor P g n = some g' ∧ slot g' = some e ∧
        ∀ m < n, ∀ g'', ancestor P g m = some g'' → slot g'' = none := by
  induction fuel generalizing g with
  | zero => simp [resolveFrom]
  | succ fuel ih =>
    rw [Nat.exists_lt_succ_left, resolveFrom]
    simp only [Nat.forall_lt_succ_left]
    cases hslot : slot g with
    | some e' => simp [ancestor_zero, hslot]
    | none =>
      cases hpar : P.genParent g with
      | none => simp [ancestor_zero, hslot, ancestor_succ_of_no_parent hpar]
      | some p => simp [ancestor_zero, hslot, ancestor_succ_of_parent hpar, ih]

end Resolve

/-! ## The items of `configOk` (R132) -/

section ConfigOk

variable {P : Params} {c : Configuration}

/-- Items 2 and 3. -/
theorem countsOk_iff : countsOk c = true ↔
    (1 ≤ cfgPC c ∧ cfgPC c ≤ 16) ∧ (∃ n, c.xbarSliceCount.toNat = 2 ^ n) ∧
      (∃ n, c.l2SetCount.toNat = 2 ^ n) ∧ ∃ n, cfgNB c = 2 ^ n := by
  simp only [countsOk, Bool.and_eq_true, decide_eq_true_eq, isPow2_iff, and_assoc]

/-- Item 4. -/
theorem setBitsOk_iff : setBitsOk c = true ↔
    cfgS c ≤ 63 ∧ c.l2SetCount.toNat = 2 ^ cfgS c := by
  simp only [setBitsOk, Bool.and_eq_true, decide_eq_true_eq, beq_iff_eq]

/-- Item 5. -/
theorem bankGroupOk_iff : bankGroupOk c = true ↔
    cfgExt c ≤ 63 ∧ cfgNB c * 2 ^ cfgExt c < 2 ^ 64 := by
  simp only [bankGroupOk, Bool.and_eq_true, decide_eq_true_eq, cfgG_eq]

/-- Item 6. -/
theorem pageOk_iff : pageOk c = true ↔
    (∃ n, cfgGRAN c = 2 ^ n) ∧ (∃ n, cfgPAGE c = 2 ^ n) ∧ cfgGRAN c ≤ cfgPAGE c := by
  simp only [pageOk, Bool.and_eq_true, decide_eq_true_eq, isPow2_iff, and_assoc]

/-- Item 7. -/
theorem interleaveOk_iff : interleaveOk c = true ↔ 1 ≤ cfgPIB c ∧ cfgPIB c % cfgGRAN c = 0 := by
  simp only [interleaveOk, Bool.and_eq_true, decide_eq_true_eq, beq_iff_eq]

/-- Items 8 and 9. -/
theorem granuleFits_iff : granuleFits P c = true ↔
    P.l2SectorBytes % cfgGRAN c = 0 ∧ cfgGRAN c ≤ 2 ^ P.tileFieldLsb := by
  simp only [granuleFits, Bool.and_eq_true, decide_eq_true_eq, beq_iff_eq]

/-- Item 12. -/
theorem reachOk_iff : reachOk c = true ↔ cfgPIB c ≤ cfgNB c * 2 ^ cfgExt c * cfgPAGE c := by
  simp only [reachOk, decide_eq_true_eq, cfgG_eq]

/-- Item 11. -/
theorem resolvePolicy_isSome_iff : (resolvePolicy P c).isSome = true ↔
    (resolve P (·.partCorr (policyKey c)) (cfgGen c)).isSome = true ∧
      (resolve P (·.sliceOf (policyKey c)) (cfgGen c)).isSome = true ∧
      (resolve P (·.l2Fold (policyKey c)) (cfgGen c)).isSome = true ∧
      (resolve P (·.l2Combine (policyKey c)) (cfgGen c)).isSome = true ∧
      (resolve P (·.bankHash (policyKey c)) (cfgGen c)).isSome = true ∧
      (resolve P (·.subPartOf (policyKey c)) (cfgGen c)).isSome = true := by
  simp only [Option.isSome_iff_exists, resolvePolicy_eq_some_iff]
  constructor
  · rintro ⟨pol, hpart, hslice, hfold, hcomb, hbank, hsub⟩
    exact ⟨⟨_, hpart⟩, ⟨_, hslice⟩, ⟨_, hfold⟩, ⟨_, hcomb⟩, ⟨_, hbank⟩, ⟨_, hsub⟩⟩
  · rintro ⟨⟨_, hpart⟩, ⟨_, hslice⟩, ⟨_, hfold⟩, ⟨_, hcomb⟩, ⟨_, hbank⟩, ⟨_, hsub⟩⟩
    exact ⟨⟨_, _, _, _, _, _⟩, hpart, hslice, hfold, hcomb, hbank, hsub⟩

/-- Items 1, 10 and 11. -/
theorem generationOk_iff : generationOk P c = true ↔
    cfgGen c < P.numGenerations ∧ (P.policy (cfgGen c)).supported c = true ∧
      (resolvePolicy P c).isSome = true := by
  simp only [generationOk, Bool.and_eq_true, decide_eq_true_eq, and_assoc]

/-- The items in the groups of the model, with none left out. -/
theorem configOk_iff : configOk P c = true ↔
    countsOk c = true ∧ setBitsOk c = true ∧ bankGroupOk c = true ∧ pageOk c = true ∧
      interleaveOk c = true ∧ reachOk c = true ∧ granuleFits P c = true ∧
      generationOk P c = true := by
  simp only [configOk, Bool.and_eq_true, and_assoc]

theorem configureReply_of_configOk (h : configOk P c = true) :
    configureReply P false c = ⟨.ok, []⟩ :=
  (if_neg Bool.false_ne_true).trans (if_pos h)

theorem configureReply_of_not_configOk (h : ¬ configOk P c = true) :
    configureReply P false c = ⟨.configUnsupported, []⟩ :=
  (if_neg Bool.false_ne_true).trans (if_neg h)

theorem configureEngine_of_configOk (h : configOk P c = true) (unspecified : Configuration)
    (e : Engine) : configureEngine P false c unspecified e = ⟨true, c⟩ :=
  (if_neg Bool.false_ne_true).trans (if_pos h)

theorem configureEngine_of_not_configOk (h : ¬ configOk P c = true) (unspecified : Configuration)
    (e : Engine) : configureEngine P false c unspecified e = ⟨false, unspecified⟩ :=
  (if_neg Bool.false_ne_true).trans (if_neg h)

end ConfigOk

/-! ## One CONFIGURE, sent alone (R144, R145) -/

/-- With one request outstanding and nothing sent, its response is what comes next. -/
theorem nextEvent_of_outstanding_singleton {s : State} {e : Entry} (ho : s.outstanding = [e])
    (hi : s.inputs = []) : nextEvent s = .answer 0 := by
  simp only [nextEvent, nextEventOf, ho, hi, List.length_singleton, Nat.mod_one]

/-- That response is then delivered, and the block has nothing left to do. -/
theorem step_of_outstanding_singleton {s : State} {e : Entry} (ho : s.outstanding = [e])
    (hi : s.inputs = []) : step s = .next
      { s with outstanding := [], responses := s.responses ++ [e.response],
               tick := s.tick + 1 } := by
  rw [step_of_answer (nextEvent_of_outstanding_singleton ho hi),
    answer_of_getElem? (e := e) (by rw [ho]; rfl), ho]
  rfl

/-- A CONFIGURE that is alone on the request channel is taken, and waits alone for its answer. -/
theorem step_of_only_configure {s : State} (tag : Tag) (c : Configuration)
    (ho : s.outstanding = [])
    (hi : s.inputs = [.request (encodeRequest (.configure tag false c))]) :
    step s = .next
      { s with
        eng := configureEngine Config.params false c (Config.unspecifiedCfg (s.tick + 1)) s.eng
        inputs := []
        outstanding := [⟨.operation (.configure tag false c), none,
          ⟨(configureReply Config.params false c).status, opConfigure, tag, []⟩⟩]
        tick := s.tick + 1 } := by
  rw [step_of_accept (nextEvent_of_outstanding_nil ho hi) (decodeRequest_encodeRequest rfl),
    exec_configure, accept, responseTo, configureReply_payload, fetched, ho]
  rfl

/-- Two steps from a block with nothing outstanding take and answer it. -/
theorem run_of_only_configure {s : State} (tag : Tag) (c : Configuration)
    (ho : s.outstanding = [])
    (hi : s.inputs = [.request (encodeRequest (.configure tag false c))]) :
    Sys2Proof.core.run 2 s = .next
      { s with
        eng := configureEngine Config.params false c (Config.unspecifiedCfg (s.tick + 1)) s.eng
        inputs := []
        outstanding := []
        responses := s.responses ++
          [⟨(configureReply Config.params false c).status, opConfigure, tag, []⟩]
        tick := s.tick + 2 } :=
  (core_run_succ 1 _ _ (step_of_only_configure tag c ho hi)).trans
    (core_run_succ 0 _ _ (step_of_outstanding_singleton
      (e := ⟨.operation (.configure tag false c), none, _⟩) rfl rfl))

/-! ## The obligations on generation_policy_mux -/

/-- Settles O9: `resolve` looks at `NUM_GENERATIONS` members of the chain, and it has no more. -/
theorem resolveTakesFirstEntry : Obligations.ResolveTakesFirstEntry := by
  intro P α slot g hg
  refine ⟨fun e => ?_, ?_⟩
  · rw [resolve, resolveFrom_eq_some_iff]
    constructor
    · rintro ⟨n, -, g', hn, he, hfirst⟩
      exact ⟨n, g', hn, he, fun m g'' hm => hfirst m hm g''⟩
    · rintro ⟨n, g', hn, he, hfirst⟩
      exact ⟨n, ancestor_index_lt hg hn, g', hn, he, fun m hm g'' => hfirst m g'' hm⟩
  · rw [resolve, resolveFrom_eq_none_iff]
    exact ⟨fun h n g' hn => h n (ancestor_index_lt hg hn) g' hn, fun h n _ => h n⟩

/-- Settles O10, item by item; the hypotheses have the numbers of R132. -/
theorem configOkIsTheTwelveItems : Obligations.ConfigOkIsTheTwelveItems := by
  intro P c key
  refine ⟨?_, fun h => configureReply_of_not_configOk (ne_true_of_eq_false h)⟩
  · rw [configOk_iff, countsOk_iff, setBitsOk_iff, bankGroupOk_iff, pageOk_iff, interleaveOk_iff,
      reachOk_iff, granuleFits_iff, generationOk_iff, resolvePolicy_isSome_iff]
    constructor
    · rintro ⟨⟨h2, h3⟩, h4, h5, h6, h7, h12, ⟨h8, h9⟩, h1, h10, h11⟩
      exact ⟨h1, h2, h3, h4, h5, h6, h7, h8, h9, h10, h11, h12⟩
    · rintro ⟨h1, h2, h3, h4, h5, h6, h7, h8, h9, h10, h11, h12⟩
      exact ⟨⟨h2, h3⟩, h4, h5, h6, h7, h12, ⟨h8, h9⟩, h1, h10, h11⟩

/-- Settles O48: the run of one CONFIGURE from reset, with its check passed and failed. -/
theorem configureReachesConfigured : Obligations.ConfigureReachesConfigured := by
  intro tag c
  refine ⟨_, run_of_only_configure tag c rfl rfl, ?_⟩
  split
  next hok =>
    rw [configureEngine_of_configOk hok, configureReply_of_configOk hok]
    rfl
  next hok =>
    rw [configureEngine_of_not_configOk hok, configureReply_of_not_configOk hok]
    exact ⟨rfl, rfl, rfl⟩

end Sys2Proof.Machine

/-! PROOFS. DECODE: the items of `configOk` as facts about the registers, the values of the pipeline as
the equations of their stages (spec/41_address_interleave_decoder.md R172), their ranges and bounds
(R174, R175), and the offsets that one granule holds together (R178). -/

namespace Sys2Proof.Machine

/-! ## What an accepted configuration gives (R132) -/

section AcceptedConfig

variable {P : Params} {c : Configuration}

theorem cfgPC_pos (h : configOk P c = true) : 1 ≤ cfgPC c := by
  obtain ⟨hcounts, -⟩ := configOk_iff.1 h
  exact (countsOk_iff.1 hcounts).1.1

theorem cfgNB_eq_two_pow (h : configOk P c = true) : ∃ n, cfgNB c = 2 ^ n := by
  obtain ⟨hcounts, -⟩ := configOk_iff.1 h
  obtain ⟨-, -, -, hnb⟩ := countsOk_iff.1 hcounts
  exact hnb

theorem cfgS_le (h : configOk P c = true) : cfgS c ≤ 63 := by
  obtain ⟨-, hset, -⟩ := configOk_iff.1 h
  exact (setBitsOk_iff.1 hset).1

theorem cfgExt_le (h : configOk P c = true) : cfgExt c ≤ 63 := by
  obtain ⟨-, -, hbank, -⟩ := configOk_iff.1 h
  exact (bankGroupOk_iff.1 hbank).1

/-- `G` is a power of two that fits a word (items 3 and 5). -/
theorem cfgG_eq_two_pow (h : configOk P c = true) : ∃ n, n < 64 ∧ cfgG c = 2 ^ n := by
  obtain ⟨-, -, hbank, -⟩ := configOk_iff.1 h
  obtain ⟨n, hn⟩ := cfgNB_eq_two_pow h
  have hG : cfgG c = 2 ^ (n + cfgExt c) := by rw [cfgG_eq, hn, Nat.pow_add]
  refine ⟨n + cfgExt c, ?_, hG⟩
  have hlt := (bankGroupOk_iff.1 hbank).2
  rw [← cfgG_eq, hG] at hlt
  exact (Nat.pow_lt_pow_iff_right (by decide)).1 hlt

/-- The granule is a power of two not above the lookup field (items 6 and 9). -/
theorem cfgGRAN_eq_two_pow (h : configOk P c = true) :
    ∃ g, g ≤ P.tileFieldLsb ∧ cfgGRAN c = 2 ^ g := by
  obtain ⟨-, -, -, hpage, -, -, hgran, -⟩ := configOk_iff.1 h
  obtain ⟨⟨g, hg⟩, -, -⟩ := pageOk_iff.1 hpage
  have hle := (granuleFits_iff.1 hgran).2
  rw [hg] at hle
  exact ⟨g, (Nat.pow_le_pow_iff_right (by decide)).1 hle, hg⟩

theorem cfgPAGE_pos (h : configOk P c = true) : 0 < cfgPAGE c := by
  obtain ⟨-, -, -, hpage, -⟩ := configOk_iff.1 h
  obtain ⟨-, ⟨n, hn⟩, -⟩ := pageOk_iff.1 hpage
  exact hn ▸ Nat.two_pow_pos n

theorem cfgGRAN_dvd_cfgPAGE (h : configOk P c = true) : cfgGRAN c ∣ cfgPAGE c := by
  obtain ⟨-, -, -, hpage, -⟩ := configOk_iff.1 h
  obtain ⟨⟨g, hg⟩, ⟨n, hn⟩, hle⟩ := pageOk_iff.1 hpage
  rw [hg, hn] at hle ⊢
  exact pow_dvd_pow 2 ((Nat.pow_le_pow_iff_right (by decide)).1 hle)

theorem cfgGRAN_dvd_cfgPIB (h : configOk P c = true) : cfgGRAN c ∣ cfgPIB c := by
  obtain ⟨-, -, -, -, hpib, -⟩ := configOk_iff.1 h
  exact Nat.dvd_of_mod_eq_zero (interleaveOk_iff.1 hpib).2

theorem cfgPIB_pos (h : configOk P c = true) : 0 < cfgPIB c := by
  obtain ⟨-, -, -, -, hpib, -⟩ := configOk_iff.1 h
  exact (interleaveOk_iff.1 hpib).1

theorem cfgPIB_le_reach (h : configOk P c = true) : cfgPIB c ≤ cfgG c * cfgPAGE c := by
  obtain ⟨-, -, -, -, -, hreach, -⟩ := configOk_iff.1 h
  exact cfgG_eq c ▸ reachOk_iff.1 hreach

theorem cfgGRAN_dvd_l2SectorBytes (h : configOk P c = true) : cfgGRAN c ∣ P.l2SectorBytes := by
  obtain ⟨-, -, -, -, -, -, hgran, -⟩ := configOk_iff.1 h
  exact Nat.dvd_of_mod_eq_zero (granuleFits_iff.1 hgran).1

end AcceptedConfig

/-! ## The words of a successful DECODE (R102, R171) -/

theorem locationWords_injective {l l' : PhysicalLocation}
    (h : locationWords l = locationWords l') : l = l' := by
  cases l
  cases l'
  simpa [locationWords] using h

/-- A payload begins with the words of exactly one location. -/
theorem take_decodePayload_eq_iff (c : Configuration) (trace : Bool) (d : Decoded)
    (l : PhysicalLocation) :
    (decodePayload c trace d).take (locationWords l).length = locationWords l ↔
      l = coordinatesLocation (cfgS c) d.loc := by
  have htake : (decodePayload c trace d).take (locationWords l).length =
      locationWords (coordinatesLocation (cfgS c) d.loc) := rfl
  rw [htake]
  exact ⟨fun h => (locationWords_injective h).symm, fun h => h ▸ rfl⟩

/-- A DECODE answers OK with the words of a location exactly where no check of R171 applies and the
location is the one that the pipeline computes. -/
theorem answersOk_decodeReply_iff {P : Params} {e : Engine} {trace : Bool} {a : Word}
    {kind : Option SurfaceKind} {page : Option PageSizeClass} {l : PhysicalLocation} :
    answersOk (decodeReply P e trace a kind page) (locationWords l) ↔
      ∃ k p ks pol, e.valid = true ∧ kind = some k ∧ page = some p ∧
        lookupKs P e.cfg p k = some ks ∧ resolvePolicy P e.cfg = some pol ∧
        l = coordinatesLocation (cfgS e.cfg) (decodePipeline P pol ks e.cfg a k).loc := by
  constructor
  · rintro ⟨hst, hpay⟩
    rcases hv : e.valid with _ | _
    · simp [decodeReply_of_invalid trace a hv] at hst
    rcases kind with _ | k
    · simp [decodeReply_of_no_kind trace a hv] at hst
    rcases page with _ | p
    · simp [decodeReply_of_no_page trace a hv] at hst
    rcases hks : lookupKs P e.cfg p k with _ | ks
    · simp [decodeReply_of_no_entry trace a hv hks] at hst
    rcases hpol : resolvePolicy P e.cfg with _ | pol
    · simp [decodeReply_of_no_policy trace a hv hpol] at hst
    rw [decodeReply_of_entry trace a hv hks hpol] at hpay
    exact ⟨k, p, ks, pol, rfl, rfl, rfl, hks, rfl, (take_decodePayload_eq_iff ..).1 hpay⟩
  · rintro ⟨k, p, ks, pol, hv, rfl, rfl, hks, hpol, hl⟩
    rw [decodeReply_of_entry trace a hv hks hpol]
    exact ⟨rfl, (take_decodePayload_eq_iff ..).2 hl⟩

/-- The twelve values of a location in the order of their words (R102). -/
def Coordinates.values (l : Coordinates) : List Nat :=
  [l.partitionId, l.subPartitionId, l.rankId, l.bankId, l.rowId, l.columnId, l.sliceId, l.l2Set,
   l.l2Tag, l.l2Sector, l.l2BankId, l.xbarRawAddress]

/-- The twelve trace values in the order of their words (R105). -/
def TraceValues.values (t : TraceValues) : List Nat :=
  [t.rawAddress, t.kindSwizzledAddress, t.offset, t.quotient, t.remainder, t.l2Offset,
   t.xbarRawAddress, t.eccAddress, t.bankAddress, t.rawBankGroup, t.tmp, t.bankHash]

theorem map_toNat_map_zext64 {vs : List Nat} (h : ∀ v ∈ vs, v < 2 ^ 64) :
    (vs.map zext64).map BitVec.toNat = vs := by
  rw [List.map_map]
  exact (List.map_congr_left fun v hv => zext64_toNat (h v hv)).trans (List.map_id' vs)

/-- Built from w8 and w7, w11 is still the word of its own value where that fits. -/
theorem coordinatesLocation_xbar {s : Nat} {l : Coordinates}
    (hxbar : l.xbarRawAddress = (l.l2Tag <<< s) ||| l.l2Set) (h : l.xbarRawAddress < 2 ^ 64) :
    (coordinatesLocation s l).xbarRawAddress = zext64 l.xbarRawAddress := by
  rw [hxbar] at h ⊢
  exact xbarWord_of_lt h

/-- Values that fit their words are what the words hold. -/
theorem locationWords_toNat {s : Nat} {l : Coordinates}
    (hxbar : l.xbarRawAddress = (l.l2Tag <<< s) ||| l.l2Set) (h : ∀ v ∈ l.values, v < 2 ^ 64) :
    (locationWords (coordinatesLocation s l)).map BitVec.toNat = l.values := by
  have hword := coordinatesLocation_xbar hxbar (h _ (by simp [Coordinates.values]))
  have hwords : locationWords (coordinatesLocation s l) = l.values.map zext64 := by
    rw [locationWords, hword]
    rfl
  rw [hwords, map_toNat_map_zext64 h]

theorem traceWords_toNat {t : TraceValues} (h : ∀ v ∈ t.values, v < 2 ^ 64) :
    (traceWords (zext64 t.xbarRawAddress) t).map BitVec.toNat = t.values :=
  map_toNat_map_zext64 h

/-! ## The pipeline as equations (R172) -/

/-- Each value of a DECODE by the rule of its stage, from the values before it (R172). -/
structure FollowsStages (P : Params) (pol : Policy) (ks : KsEntry) (c : Configuration) (a : Word)
    (k : SurfaceKind) (d : Decoded) : Prop where
  rawAddress : d.trace.rawAddress = (tileLookup P a k).toNat
  kindSwizzledAddress : d.trace.kindSwizzledAddress = (kindHash ks (tileLookup P a k)).toNat
  offset : d.trace.offset = d.trace.kindSwizzledAddress % cfgPIB c
  quotient : d.trace.quotient = d.trace.kindSwizzledAddress / cfgPIB c / cfgPC c
  remainder : d.trace.remainder = d.trace.kindSwizzledAddress / cfgPIB c % cfgPC c
  partitionId : d.loc.partitionId = partitionOf c pol d.trace.remainder d.trace.quotient
  sliceId : d.loc.sliceId = pol.sliceOf d.trace.quotient d.trace.offset
  l2Tag : d.loc.l2Tag = (l2Hash c pol d.trace.quotient).1
  l2Set : d.loc.l2Set = (l2Hash c pol d.trace.quotient).2
  l2Offset : d.trace.l2Offset = d.trace.offset % P.l2SectorBytes
  l2Sector : d.loc.l2Sector = d.trace.offset / P.l2SectorBytes % P.l2SectorsPerLine
  l2BankId : d.loc.l2BankId = d.trace.offset / (P.l2SectorBytes * P.l2SectorsPerLine)
  loc_xbar : d.loc.xbarRawAddress = xbarCompose c d.loc.l2Tag d.loc.l2Set
  trace_xbar : d.trace.xbarRawAddress = d.loc.xbarRawAddress
  eccAddress : d.trace.eccAddress = eccMap P c d.loc.xbarRawAddress
  bankAddress : d.trace.bankAddress = bankRotate P c d.trace.eccAddress
  rawBankGroup : d.trace.rawBankGroup = d.trace.bankAddress / cfgG c
  tmp : d.trace.tmp = d.trace.bankAddress % cfgG c
  rowId : d.loc.rowId = (rowCol c d.trace.rawBankGroup d.trace.offset).1
  columnId : d.loc.columnId = (rowCol c d.trace.rawBankGroup d.trace.offset).2
  bankHash : d.trace.bankHash = bankHashOf pol.bankHash d.loc.rowId
  bank_rank : (d.loc.bankId, d.loc.rankId) = bankSwap c d.trace.bankHash
    (P.bankPerm (cfgNB c) (cfgExt c) d.trace.tmp).1 (P.bankPerm (cfgNB c) (cfgExt c) d.trace.tmp).2
  subPartitionId : d.loc.subPartitionId = pol.subPartOf d.trace.bankAddress d.trace.offset

theorem decodePipeline_followsStages (P : Params) (pol : Policy) (ks : KsEntry) (c : Configuration)
    (a : Word) (k : SurfaceKind) :
    FollowsStages P pol ks c a k (decodePipeline P pol ks c a k) := by
  constructor <;> rfl

/-! ## The ranges of the stages -/

/-- A word that carries a value below `n` is below `n`, even the free word of an oversize value. -/
theorem zext64_toNat_lt {v n : Nat} (h : v < n) : (zext64 v).toNat < n := by
  rcases Nat.lt_or_ge v (2 ^ 64) with hv | hv
  · rwa [zext64_toNat hv]
  · exact (zext64 v).isLt.trans (hv.trans_lt h)

theorem two_pow_le_word {n : Nat} (h : n ≤ 63) : 2 ^ n ≤ 2 ^ 64 :=
  Nat.pow_le_pow_right (by decide) (h.trans (by decide))

/-- A value is below a power of two that its aligned block of `2 ^ m` values lies below. -/
theorem lt_two_pow_of_div_eq {m n x y : Nat} (hmn : m ≤ n) (h : x / 2 ^ m = y / 2 ^ m)
    (hy : y < 2 ^ n) : x < 2 ^ n := by
  have hpow : 2 ^ n = 2 ^ (n - m) * 2 ^ m := by rw [← Nat.pow_add, Nat.sub_add_cancel hmn]
  rw [hpow] at hy ⊢
  exact Nat.lt_mul_of_div_lt (h ▸ Nat.div_lt_of_lt_mul (Nat.mul_comm _ _ ▸ hy)) (Nat.two_pow_pos m)

section StageRanges

variable {P : Params} {c : Configuration} {pol : Policy}

/-- R211: the rotation keeps the residue below `PC`. -/
theorem partitionOf_lt (hpc : 1 ≤ cfgPC c) {r : Nat} (hr : r < cfgPC c) (q : Nat) :
    partitionOf c pol r q < cfgPC c := by
  rw [partitionOf]
  split_ifs
  · exact hr
  · exact Nat.mod_lt _ hpc

/-- R177, R213: one partition is a power of two, so the correction is not read. -/
theorem partitionOf_of_one (hpc : cfgPC c = 1) (r q : Nat) : partitionOf c pol r q = r := by
  rw [partitionOf, hpc]
  rfl

/-- R241, R242. -/
theorem combineFwd_lt {s low h : Nat} (hlow : low < 2 ^ s) (hh : h < 2 ^ s) (op : Combine) :
    combineFwd s op low h < 2 ^ s := by
  cases op with
  | xor => exact Nat.xor_lt_two_pow hlow hh
  | addMod => exact Nat.mod_lt _ (Nat.two_pow_pos s)

theorem l2Hash_fst (q : Nat) : (l2Hash c pol q).1 = q / 2 ^ cfgS c :=
  Nat.shiftRight_eq_div_pow _ _

theorem l2Hash_snd_lt (hfold : ∀ t, pol.l2Fold t < 2 ^ cfgS c) (q : Nat) :
    (l2Hash c pol q).2 < 2 ^ cfgS c :=
  combineFwd_lt (Nat.mod_lt _ (Nat.two_pow_pos _)) (hfold _) _

/-- The crossbar address has the tag above the set, so it lies in the block of its tag. -/
theorem xbarCompose_div {v : Nat} (t : Nat) (hv : v < 2 ^ cfgS c) :
    xbarCompose c t v / 2 ^ cfgS c = t := by
  rw [xbarCompose, shiftLeft_or_of_lt _ _ _ hv, Nat.mul_comm,
    Nat.mul_add_div (Nat.two_pow_pos _), Nat.div_eq_of_lt hv, Nat.add_zero]

theorem eccMap_le (hecc : ∀ x, P.eccCompact x ≤ x) (x : Nat) : eccMap P c x ≤ x := by
  rw [eccMap]
  split_ifs
  · exact hecc x
  · exact le_rfl

/-- R264: what is done to the low field leaves the block of `2 ^ w` values. -/
theorem onLowField_div {w : Nat} {rot : Nat → Nat} (hrot : ∀ lo, rot lo < 2 ^ w) (x : Nat) :
    onLowField w rot x / 2 ^ w = x / 2 ^ w := by
  have hhigh : x - x % 2 ^ w = 2 ^ w * (x / 2 ^ w) := by
    have := Nat.div_add_mod x (2 ^ w)
    omega
  rw [onLowField, hhigh, Nat.mul_add_div (Nat.two_pow_pos w), Nat.div_eq_of_lt (hrot _),
    Nat.add_zero]

theorem bankRotate_div (P : Params) (c : Configuration) (x : Nat) :
    bankRotate P c x / 2 ^ P.bankRotWidth = x / 2 ^ P.bankRotWidth := by
  rw [bankRotate]
  split_ifs
  · rfl
  · exact onLowField_div (fun _ => Nat.mod_lt _ (Nat.two_pow_pos _)) x

theorem tableFold_lt {n : Nat} {T : List Nat} (h : ∀ t ∈ T, t < 2 ^ n) (bits : Nat) :
    tableFold T bits < 2 ^ n := by
  induction T generalizing bits with
  | nil => exact Nat.two_pow_pos n
  | cons t ts ih =>
    obtain ⟨ht, hts⟩ := List.forall_mem_cons.1 h
    have helem : (if bits % 2 = 1 then t else 0) < 2 ^ n := by
      split_ifs
      · exact ht
      · exact Nat.two_pow_pos n
    exact Nat.xor_lt_two_pow helem (ih hts _)

/-- R140: the swizzle value is below `G`. -/
theorem bankHashOf_lt (hcfg : configOk P c = true) (hlaws : PolicyLaws P c pol) (row : Nat) :
    bankHashOf pol.bankHash row < cfgG c := by
  cases hb : pol.bankHash with
  | fixedTerm f => exact hlaws.fixedTerm_lt f hb row
  | tableFold base T =>
    obtain ⟨n, -, hG⟩ := cfgG_eq_two_pow hcfg
    have hT := hlaws.tableFold_lt base T hb
    rw [hG] at hT ⊢
    exact tableFold_lt hT _

/-- R268: the exclusive OR with the two parts of a value below `G` keeps bank and rank in range. -/
theorem bankSwap_lt (hcfg : configOk P c = true) {sw bank rank : Nat} (hsw : sw < cfgG c)
    (hbank : bank < cfgNB c) (hrank : rank < 2 ^ cfgExt c) :
    (bankSwap c sw bank rank).1 < cfgNB c ∧ (bankSwap c sw bank rank).2 < 2 ^ cfgExt c := by
  obtain ⟨n, hn⟩ := cfgNB_eq_two_pow hcfg
  have hhigh : sw / cfgNB c < 2 ^ cfgExt c := Nat.div_lt_of_lt_mul (cfgG_eq c ▸ hsw)
  have hlow : sw % cfgNB c < cfgNB c := Nat.mod_lt _ (by omega)
  refine ⟨?_, Nat.xor_lt_two_pow hrank hhigh⟩
  rw [bankSwap]
  rw [hn] at hbank hlow ⊢
  exact Nat.xor_lt_two_pow hbank hlow

/-- R271: a page holds `PAGE / GRAN` columns. -/
theorem rowCol_snd_lt (hcfg : configOk P c = true) (group offset : Nat) :
    (rowCol c group offset).2 < cfgPAGE c / cfgGRAN c := by
  have hpage : cfgGRAN c * (cfgPAGE c / cfgGRAN c) = cfgPAGE c :=
    Nat.mul_div_cancel' (cfgGRAN_dvd_cfgPAGE hcfg)
  exact Nat.div_lt_of_lt_mul (hpage.symm ▸ Nat.mod_lt _ (cfgPAGE_pos hcfg))

/-- R174: one bank group and the offset in it reach no row past the groups of its `G` pages
(item 12). -/
theorem rowCol_fst_lt (hcfg : configOk P c = true) {group offset : Nat} (ho : offset < cfgPIB c) :
    (rowCol c group offset).1 < (group + 1) * cfgG c := by
  refine Nat.div_lt_of_lt_mul ?_
  calc group * cfgPIB c + offset < (group + 1) * cfgPIB c := by rw [Nat.succ_mul]; omega
    _ ≤ (group + 1) * (cfgG c * cfgPAGE c) := Nat.mul_le_mul_left _ (cfgPIB_le_reach hcfg)
    _ = cfgPAGE c * ((group + 1) * cfgG c) := by ring

end StageRanges

/-! ## The ranges and bounds of a DECODE (R174, R175) -/

/-- The range invariants of R175, for the values of a location. -/
structure InDecodeRange (P : Params) (c : Configuration) (l : Coordinates) : Prop where
  partitionId : l.partitionId < cfgPC c
  sliceId : l.sliceId < c.xbarSliceCount.toNat
  bankId : l.bankId < cfgNB c
  rankId : l.rankId < 2 ^ cfgExt c
  l2Set : l.l2Set < 2 ^ cfgS c
  columnId : l.columnId < cfgPAGE c / cfgGRAN c
  subPartitionId : l.subPartitionId < P.subpartitionCount

section DecodeBounds

variable {P : Params} {pol : Policy} {ks : KsEntry} {c : Configuration} {a : Word} {k : SurfaceKind}
  {d : Decoded}

theorem FollowsStages.inDecodeRange (h : FollowsStages P pol ks c a k d)
    (hcfg : configOk P c = true) (hlaws : PolicyLaws P c pol) (hperm : BankPermLaws P c) :
    InDecodeRange P c d.loc := by
  have htmp : d.trace.tmp < cfgG c := by
    obtain ⟨n, -, hG⟩ := cfgG_eq_two_pow hcfg
    exact h.tmp ▸ Nat.mod_lt _ (hG ▸ Nat.two_pow_pos n)
  obtain ⟨hbank0, hrank0⟩ := hperm.perm_lt _ htmp
  have hswap := bankSwap_lt hcfg (bankHashOf_lt hcfg hlaws d.loc.rowId) hbank0 hrank0
  rw [← h.bankHash, ← h.bank_rank] at hswap
  exact {
    partitionId := by
      rw [h.partitionId, h.remainder]
      exact partitionOf_lt (cfgPC_pos hcfg) (Nat.mod_lt _ (cfgPC_pos hcfg)) _
    sliceId := h.sliceId ▸ hlaws.sliceOf_lt _ _
    bankId := hswap.1
    rankId := hswap.2
    l2Set := h.l2Set ▸ l2Hash_snd_lt hlaws.l2Fold_lt _
    columnId := h.columnId ▸ rowCol_snd_lt hcfg _ _
    subPartitionId := h.subPartitionId ▸ hlaws.subPartOf_lt _ _ }

theorem FollowsStages.quotient_le (h : FollowsStages P pol ks c a k d) :
    d.trace.quotient ≤ d.trace.kindSwizzledAddress :=
  h.quotient ▸ (Nat.div_le_self _ _).trans (Nat.div_le_self _ _)

theorem FollowsStages.offset_le (h : FollowsStages P pol ks c a k d) :
    d.trace.offset ≤ d.trace.kindSwizzledAddress :=
  h.offset ▸ Nat.mod_le _ _

theorem FollowsStages.kindSwizzledAddress_lt (h : FollowsStages P pol ks c a k d) :
    d.trace.kindSwizzledAddress < 2 ^ 64 :=
  h.kindSwizzledAddress ▸ BitVec.isLt _

/-- The tag, moved up over its set, is part of the quotient. -/
theorem FollowsStages.l2Tag_shiftLeft_lt (h : FollowsStages P pol ks c a k d) :
    d.loc.l2Tag <<< cfgS c < 2 ^ 64 := by
  rw [h.l2Tag, l2Hash_fst, Nat.shiftLeft_eq]
  exact (Nat.div_mul_le_self _ _).trans_lt (h.quotient_le.trans_lt h.kindSwizzledAddress_lt)

/-- R174: the crossbar address lies in the quotient's block of `2 ^ s` values. -/
theorem FollowsStages.xbar_div (h : FollowsStages P pol ks c a k d)
    (hfold : ∀ t, pol.l2Fold t < 2 ^ cfgS c) :
    d.loc.xbarRawAddress / 2 ^ cfgS c = d.trace.quotient / 2 ^ cfgS c := by
  rw [h.loc_xbar, h.l2Set, xbarCompose_div _ (l2Hash_snd_lt hfold _), h.l2Tag, l2Hash_fst]

theorem FollowsStages.xbar_lt (h : FollowsStages P pol ks c a k d) (hcfg : configOk P c = true)
    (hfold : ∀ t, pol.l2Fold t < 2 ^ cfgS c) : d.loc.xbarRawAddress < 2 ^ 64 :=
  lt_two_pow_of_div_eq ((cfgS_le hcfg).trans (by decide)) (h.xbar_div hfold)
    (h.quotient_le.trans_lt h.kindSwizzledAddress_lt)

theorem FollowsStages.eccAddress_le (h : FollowsStages P pol ks c a k d)
    (hecc : ∀ x, P.eccCompact x ≤ x) : d.trace.eccAddress ≤ d.loc.xbarRawAddress :=
  h.eccAddress ▸ eccMap_le hecc _

/-- R174: the rotation leaves the ECC address in its block of `2 ^ BANK_ROT_WIDTH` values. -/
theorem FollowsStages.bankAddress_div (h : FollowsStages P pol ks c a k d) :
    d.trace.bankAddress / 2 ^ P.bankRotWidth = d.trace.eccAddress / 2 ^ P.bankRotWidth :=
  h.bankAddress ▸ bankRotate_div P c _

theorem FollowsStages.bankAddress_lt (h : FollowsStages P pol ks c a k d)
    (hecc : d.trace.eccAddress < 2 ^ 64) : d.trace.bankAddress < 2 ^ 64 :=
  lt_two_pow_of_div_eq (P.bankRotWidth_le.trans (by decide)) h.bankAddress_div hecc

/-- R174: the rows of the bank groups below `2 ^ 64 / G` end at `2 ^ 64`. -/
theorem FollowsStages.rowId_lt (h : FollowsStages P pol ks c a k d) (hcfg : configOk P c = true)
    (hbank : d.trace.bankAddress < 2 ^ 64) : d.loc.rowId < 2 ^ 64 := by
  obtain ⟨n, hn, hG⟩ := cfgG_eq_two_pow hcfg
  have hoffset : d.trace.offset < cfgPIB c := h.offset ▸ Nat.mod_lt _ (cfgPIB_pos hcfg)
  have hpow : 2 ^ 64 = 2 ^ n * 2 ^ (64 - n) := by rw [← Nat.pow_add, Nat.add_sub_cancel' hn.le]
  have hgroup : d.trace.rawBankGroup < 2 ^ (64 - n) := by
    rw [h.rawBankGroup, hG]
    exact Nat.div_lt_of_lt_mul (hpow ▸ hbank)
  calc d.loc.rowId < (d.trace.rawBankGroup + 1) * cfgG c :=
        h.rowId ▸ rowCol_fst_lt hcfg hoffset
    _ ≤ 2 ^ (64 - n) * 2 ^ n := hG ▸ Nat.mul_le_mul_right _ hgroup
    _ = 2 ^ 64 := by rw [Nat.mul_comm, ← hpow]

/-- R174, for the words w0 to w11. -/
theorem FollowsStages.values_loc_lt (h : FollowsStages P pol ks c a k d)
    (hcfg : configOk P c = true) (hrange : InDecodeRange P c d.loc)
    (hsub : P.subpartitionCount ≤ 2 ^ 64) (hxbar : d.loc.xbarRawAddress < 2 ^ 64)
    (hbank : d.trace.bankAddress < 2 ^ 64) : ∀ v ∈ d.loc.values, v < 2 ^ 64 := by
  have hquotient := h.quotient_le.trans_lt h.kindSwizzledAddress_lt
  have hoffset := h.offset_le.trans_lt h.kindSwizzledAddress_lt
  have htag : d.loc.l2Tag ≤ d.trace.quotient := by
    rw [h.l2Tag, l2Hash_fst]
    exact Nat.div_le_self _ _
  have hsector : d.loc.l2Sector ≤ d.trace.offset :=
    h.l2Sector ▸ (Nat.mod_le _ _).trans (Nat.div_le_self _ _)
  have hbankId : d.loc.l2BankId ≤ d.trace.offset := h.l2BankId ▸ Nat.div_le_self _ _
  simp only [Coordinates.values, List.forall_mem_cons, List.not_mem_nil, false_implies,
    implies_true, and_true]
  exact ⟨hrange.partitionId.trans (BitVec.isLt _), hrange.subPartitionId.trans_le hsub,
    hrange.rankId.trans_le (two_pow_le_word (cfgExt_le hcfg)),
    hrange.bankId.trans (BitVec.isLt _), h.rowId_lt hcfg hbank,
    (hrange.columnId.trans_le (Nat.div_le_self _ _)).trans (BitVec.isLt _),
    hrange.sliceId.trans (BitVec.isLt _),
    hrange.l2Set.trans_le (two_pow_le_word (cfgS_le hcfg)),
    htag.trans_lt hquotient, hsector.trans_lt hoffset, hbankId.trans_lt hoffset, hxbar⟩

/-- R174, for the words t0 to t11. -/
theorem FollowsStages.values_trace_lt (h : FollowsStages P pol ks c a k d)
    (hcfg : configOk P c = true) (hlaws : PolicyLaws P c pol)
    (hxbar : d.loc.xbarRawAddress < 2 ^ 64) (hecc : d.trace.eccAddress < 2 ^ 64)
    (hbank : d.trace.bankAddress < 2 ^ 64) : ∀ v ∈ d.trace.values, v < 2 ^ 64 := by
  obtain ⟨n, hn, hG⟩ := cfgG_eq_two_pow hcfg
  have hksa := h.kindSwizzledAddress_lt
  have hrem : d.trace.remainder ≤ d.trace.kindSwizzledAddress :=
    h.remainder ▸ (Nat.mod_le _ _).trans (Nat.div_le_self _ _)
  have hl2 : d.trace.l2Offset ≤ d.trace.offset := h.l2Offset ▸ Nat.mod_le _ _
  have hgroup : d.trace.rawBankGroup ≤ d.trace.bankAddress := h.rawBankGroup ▸ Nat.div_le_self _ _
  have htmp : d.trace.tmp ≤ d.trace.bankAddress := h.tmp ▸ Nat.mod_le _ _
  have hsw : d.trace.bankHash < cfgG c := h.bankHash ▸ bankHashOf_lt hcfg hlaws _
  simp only [TraceValues.values, List.forall_mem_cons, List.not_mem_nil, false_implies,
    implies_true, and_true]
  exact ⟨h.rawAddress ▸ BitVec.isLt _, hksa, h.offset_le.trans_lt hksa,
    h.quotient_le.trans_lt hksa, hrem.trans_lt hksa, hl2.trans_lt (h.offset_le.trans_lt hksa),
    h.trace_xbar ▸ hxbar, hecc, hbank, hgroup.trans_lt hbank, htmp.trans_lt hbank,
    hsw.trans_le (hG ▸ two_pow_le_word (Nat.le_of_lt_succ hn))⟩

end DecodeBounds

/-! ## Offsets that one granule holds together (R178) -/

/-- Equality outside the low `g` bits, bit by bit. -/
theorem and_not_pageMaskWord_eq_iff {c : Configuration} {g : Nat} (hg : cfgGRAN c = 2 ^ g)
    {x y : Word} :
    x &&& ~~~pageMaskWord c = y &&& ~~~pageMaskWord c ↔
      ∀ i, g ≤ i → x.getLsbD i = y.getLsbD i := by
  have hbit : ∀ (z : Word) (i : Nat),
      (z &&& ~~~pageMaskWord c).getLsbD i = (z.getLsbD i && decide (g ≤ i)) := fun z i => by
    rcases Nat.lt_or_ge i 64 with hi | hi
    · rw [BitVec.getLsbD_and, BitVec.getLsbD_not, pageMaskWord, pageMask, hg, BitVec.getLsbD_ofNat,
        Nat.testBit_two_pow_sub_one]
      simp only [hi, decide_true, Bool.true_and, ← Nat.not_lt, decide_not]
    · simp [BitVec.getLsbD_of_ge _ _ hi]
  constructor
  · intro h i hi
    simpa [hbit, hi] using congrArg (BitVec.getLsbD · i) h
  · intro h
    refine BitVec.eq_of_getLsbD_eq fun i _ => ?_
    by_cases hi : g ≤ i
    · rw [hbit, hbit, h i hi]
    · simp [hbit, hi]

/-- Words that agree at and above bit `g` are in the same block of `2 ^ g` values. -/
theorem toNat_div_eq_of_getLsbD_eq {g : Nat} {x y : Word}
    (h : ∀ i, g ≤ i → x.getLsbD i = y.getLsbD i) : x.toNat / 2 ^ g = y.toNat / 2 ^ g := by
  refine Nat.eq_of_testBit_eq fun i => ?_
  rw [Nat.testBit_div_two_pow, Nat.testBit_div_two_pow]
  exact h (i + g) (Nat.le_add_left g i)

/-- R190: the lookup field is at or above bit `g`, so the lookup keeps words together that agree
there. -/
theorem tileLookup_getLsbD_eq {P : Params} {g : Nat} (hg : g ≤ P.tileFieldLsb) {x y : Word}
    (h : ∀ i, g ≤ i → x.getLsbD i = y.getLsbD i) (k : SurfaceKind) :
    ∀ i, g ≤ i → (tileLookup P x k).getLsbD i = (tileLookup P y k).getLsbD i := by
  cases k with
  | tiled =>
    intro i hi
    have hfield : x.toNat >>> P.tileFieldLsb = y.toNat >>> P.tileFieldLsb := by
      rw [Nat.shiftRight_eq_div_pow, Nat.shiftRight_eq_div_pow]
      exact toNat_div_eq_of_getLsbD_eq fun j hj => h j (hg.trans hj)
    have hbit : x.toNat.testBit i = y.toNat.testBit i := h i hi
    rw [tileLookup_eq, tileLookup_eq]
    simp only [BitVec.getLsbD_ofNat, hfield, testBit_insertField _ _ 5 _ _ (Fin.isLt _), hbit]
  | linear => exact h
  | linearUnswizzled => exact h

/-- R136: a lawful kind hash reads the granule, and writes it, as a whole. -/
theorem kindHash_granule_eq {c : Configuration} {ks : KsEntry} (hks : KsLaws c ks) {x y : Word}
    (h : x &&& ~~~pageMaskWord c = y &&& ~~~pageMaskWord c) :
    kindHash ks x &&& ~~~pageMaskWord c = kindHash ks y &&& ~~~pageMaskWord c := by
  rw [kindHash, kindHash, ← hks.hash_clear, ← hks.hash_clear, h]

/-- Offsets that agree outside `pageMask` are swizzled into one granule. -/
theorem kindSwizzled_div_granule_eq {P : Params} {c : Configuration} {ks : KsEntry}
    (hcfg : configOk P c = true) (hks : KsLaws c ks) {a b : Word}
    (h : a &&& ~~~pageMaskWord c = b &&& ~~~pageMaskWord c) (k : SurfaceKind) :
    (kindHash ks (tileLookup P a k)).toNat / cfgGRAN c =
      (kindHash ks (tileLookup P b k)).toNat / cfgGRAN c := by
  obtain ⟨g, hle, hg⟩ := cfgGRAN_eq_two_pow hcfg
  have hraw := tileLookup_getLsbD_eq hle ((and_not_pageMaskWord_eq_iff hg).1 h) k
  have hksa := kindHash_granule_eq hks ((and_not_pageMaskWord_eq_iff hg).2 hraw)
  exact hg ▸ toNat_div_eq_of_getLsbD_eq ((and_not_pageMaskWord_eq_iff hg).1 hksa)

/-- A quotient by a multiple of the granule does not see below the granule. -/
theorem div_eq_of_granule_eq {g n x y : Nat} (hn : g ∣ n) (h : x / g = y / g) :
    x / n = y / n := by
  obtain ⟨m, rfl⟩ := hn
  rw [← Nat.div_div_eq_div_mul, h, Nat.div_div_eq_div_mul]

/-- Nor does the granule of a residue. -/
theorem mod_div_eq_of_granule_eq {g n x y : Nat} (hn : g ∣ n) (h : x / g = y / g) :
    x % n / g = y % n / g := by
  obtain ⟨m, rfl⟩ := hn
  rw [Nat.mod_mul_right_div_self, h, Nat.mod_mul_right_div_self]

/-- R271: row and column see the offset's granule only. -/
theorem rowCol_granule_eq {P : Params} {c : Configuration} (hcfg : configOk P c = true)
    {o o' : Nat} (h : o / cfgGRAN c = o' / cfgGRAN c) (group : Nat) :
    rowCol c group o = rowCol c group o' := by
  have hbytes : (group * cfgPIB c + o) / cfgGRAN c = (group * cfgPIB c + o') / cfgGRAN c := by
    have hdvd : cfgGRAN c ∣ group * cfgPIB c := Dvd.dvd.mul_left (cfgGRAN_dvd_cfgPIB hcfg) group
    rw [Nat.add_div_of_dvd_right hdvd, Nat.add_div_of_dvd_right hdvd, h]
  rw [rowCol, rowCol, div_eq_of_granule_eq (cfgGRAN_dvd_cfgPAGE hcfg) hbytes,
    mod_div_eq_of_granule_eq (cfgGRAN_dvd_cfgPAGE hcfg) hbytes]

/-- R245: so do the sector and its bank. -/
theorem l2OffsetSplit_granule_eq {P : Params} {c : Configuration} (hcfg : configOk P c = true)
    {o o' : Nat} (h : o / cfgGRAN c = o' / cfgGRAN c) :
    (l2OffsetSplit P o).2 = (l2OffsetSplit P o').2 := by
  have hsector := cfgGRAN_dvd_l2SectorBytes hcfg
  simp only [l2OffsetSplit, div_eq_of_granule_eq hsector h,
    div_eq_of_granule_eq (hsector.mul_right P.l2SectorsPerLine) h]

/-! ## The obligations -/

/-- Settles O14: the values are in range, and a word is never above what bounds its value. -/
theorem decodeRangeInvariants : Obligations.DecodeRangeInvariants := by
  intro P e trace a kind page l heng hlaws hperm hok
  obtain ⟨k, p, ks, pol, hv, -, -, -, hpol, rfl⟩ := answersOk_decodeReply_iff.1 hok
  have hr := (decodePipeline_followsStages P pol ks e.cfg a k).inDecodeRange (heng hv)
    (hlaws pol hpol) hperm
  exact ⟨zext64_toNat_lt hr.partitionId, zext64_toNat_lt hr.sliceId, zext64_toNat_lt hr.bankId,
    zext64_toNat_lt hr.rankId, zext64_toNat_lt hr.l2Set, zext64_toNat_lt hr.columnId,
    zext64_toNat_lt hr.subPartitionId⟩

/-- Settles O15, stage by stage down the chain of R174. -/
theorem decodeValuesFit : Obligations.DecodeValuesFit := by
  intro P c pol ks a k hcfg _ hlaws hperm hecc hsub d loc
  have h : FollowsStages P pol ks c a k d := decodePipeline_followsStages P pol ks c a k
  have hxbar := h.xbar_lt hcfg hlaws.l2Fold_lt
  have heccLt := (h.eccAddress_le hecc).trans_lt hxbar
  have hbank := h.bankAddress_lt heccLt
  have hlocWords := locationWords_toNat h.loc_xbar
    (h.values_loc_lt hcfg (h.inDecodeRange hcfg hlaws hperm) hsub hxbar hbank)
  have htraceWords := traceWords_toNat (h.values_trace_lt hcfg hlaws hxbar heccLt hbank)
  rw [h.trace_xbar, ← coordinatesLocation_xbar h.loc_xbar hxbar] at htraceWords
  exact ⟨h.quotient_le, h.xbar_div hlaws.l2Fold_lt, h.eccAddress_le hecc, h.bankAddress_div,
    hlocWords, htraceWords⟩

/-- Settles O18: the offsets meet in one granule from the kind hash on, and no later stage looks
inside it. -/
theorem decodeReadsGranulesOnly : Obligations.DecodeReadsGranulesOnly := by
  intro P c pol ks a b k hcfg hks hslice hsub hab d d'
  have hksa := kindSwizzled_div_granule_eq hcfg hks hab k
  have hdiv := div_eq_of_granule_eq (cfgGRAN_dvd_cfgPIB hcfg) hksa
  have hoffset := mod_div_eq_of_granule_eq (cfgGRAN_dvd_cfgPIB hcfg) hksa
  have hl2 := l2OffsetSplit_granule_eq hcfg hoffset
  have hrow := rowCol_granule_eq hcfg hoffset
  simp only [l2OffsetSplit, Prod.mk.injEq] at hl2
  simp only [d, d', decodePipeline, partitionSplit, sliceSelect, subPartition, l2OffsetSplit, ← hdiv,
    ← hrow, ← hl2.1, ← hl2.2, ← hslice _ _ _ hoffset, ← hsub _ _ _ hoffset, and_self]

/-- Settles O16: the tag has room below the set in its word, whatever the parameters. -/
theorem xbarIsTagAndSet : Obligations.XbarIsTagAndSet := by
  refine ⟨fun P e trace a kind page l hok => ?_, fun P pol ks c a k => ?_⟩
  · obtain ⟨k, p, ks, pol, -, -, -, -, -, rfl⟩ := answersOk_decodeReply_iff.1 hok
    exact xbarWord_toNat _ (decodePipeline_followsStages P pol ks e.cfg a k).l2Tag_shiftLeft_lt
  · exact (decodePipeline_followsStages P pol ks c a k).loc_xbar

/-- Settles O17: with one partition, `partitionOf` is the remainder, a residue modulo 1. -/
theorem onePartitionReadsNoCorrection : Obligations.OnePartitionReadsNoCorrection := by
  refine ⟨fun P e trace a kind page l hpc hok => ?_, fun P c pol ks a k other hpc => ?_⟩
  · obtain ⟨k, p, ks, pol, -, -, -, -, -, rfl⟩ := answersOk_decodeReply_iff.1 hok
    have h := decodePipeline_followsStages P pol ks e.cfg a k
    have hzero : (decodePipeline P pol ks e.cfg a k).loc.partitionId = 0 := by
      rw [h.partitionId, partitionOf_of_one hpc, h.remainder, show cfgPC e.cfg = 1 from hpc,
        Nat.mod_one]
    exact congrArg zext64 hzero
  · simp only [decodePipeline, partitionOf_of_one hpc]
    rfl

end Sys2Proof.Machine

/-! PROOFS. kind_swizzle_stage: the tiled lookup as a remapping of one 5-bit field, bit by bit, and its
inverse (spec/42_kind_swizzle_stage.md R190 to R192). -/

namespace Sys2Proof.Machine

/-! ## The field of the tiled lookup (R190) -/

/-- The 5-bit field at `TILE_FIELD_LSB` (R190), as an index into the tables. -/
def tileField (P : Params) (w : Word) : Fin 32 := Fin.ofNat 32 (w.toNat >>> P.tileFieldLsb % 32)

theorem tileField_val (P : Params) (w : Word) :
    (tileField P w).val = w.toNat >>> P.tileFieldLsb % 32 := Nat.mod_mod _ 32

theorem testBit_tileField (P : Params) (w : Word) (j : Nat) :
    (tileField P w).val.testBit j = (decide (j < 5) && w.getLsbD (P.tileFieldLsb + j)) := by
  rw [tileField_val, show 32 = 2 ^ 5 from rfl, Nat.testBit_mod_two_pow, Nat.testBit_shiftRight]
  rfl

/-! ## What remapping the field does (R190, R192) -/

section TileRemap

variable {P : Params} {table : Fin 32 → Fin 32} {a : Word}

/-- The field ends below bit 64, so the word keeps all of the inserted entry. -/
theorem tileRemap_getLsbD (i : Nat) :
    (tileRemap P table a).getLsbD i =
      if P.tileFieldLsb ≤ i ∧ i < P.tileFieldLsb + 5 then
        (table (tileField P a)).val.testBit (i - P.tileFieldLsb)
      else a.getLsbD i := by
  rw [tileRemap_eq, ← tileField, BitVec.getLsbD_ofNat, testBit_insertField _ _ 5 _ _ (Fin.isLt _)]
  have hlsb := P.tileFieldLsb_le
  by_cases hi : i < 64
  · simp only [hi, decide_true, Bool.true_and]
    rfl
  · have hout : ¬ (P.tileFieldLsb ≤ i ∧ i < P.tileFieldLsb + 5) := by omega
    simp only [hi, hout, decide_false, Bool.false_and, if_false,
      BitVec.getLsbD_of_ge a i (Nat.le_of_not_lt hi)]

theorem tileRemap_getLsbD_of_outside {i : Nat}
    (hi : i < P.tileFieldLsb ∨ P.tileFieldLsb + 5 ≤ i) :
    (tileRemap P table a).getLsbD i = a.getLsbD i :=
  (tileRemap_getLsbD i).trans (if_neg (by omega))

theorem tileField_tileRemap : tileField P (tileRemap P table a) = table (tileField P a) := by
  refine Fin.ext (Nat.eq_of_testBit_eq fun j => ?_)
  rw [testBit_tileField]
  by_cases hj : j < 5
  · rw [tileRemap_getLsbD, if_pos (by omega), Nat.add_sub_cancel_left, decide_eq_true hj,
      Bool.true_and]
  · have hzero : (table (tileField P a)).val.testBit j = false :=
      Nat.testBit_lt_two_pow ((table _).isLt.trans_le (Nat.pow_le_pow_right (n := 2) (by decide)
        (Nat.le_of_not_lt hj)))
    rw [hzero, decide_eq_false hj, Bool.false_and]

/-- A word is its field and the bits beside it. -/
theorem eq_of_tileField_eq {x y : Word} (hfield : tileField P x = tileField P y)
    (hout : ∀ i, i < P.tileFieldLsb ∨ P.tileFieldLsb + 5 ≤ i → x.getLsbD i = y.getLsbD i) :
    x = y := by
  refine BitVec.eq_of_getLsbD_eq fun i _ => ?_
  by_cases hi : i < P.tileFieldLsb ∨ P.tileFieldLsb + 5 ≤ i
  · exact hout i hi
  · obtain ⟨j, rfl⟩ := Nat.exists_eq_add_of_le (show P.tileFieldLsb ≤ i by omega)
    have hj : j < 5 := by omega
    have hbit := congrArg (fun f : Fin 32 => f.val.testBit j) hfield
    simpa only [testBit_tileField, hj, decide_true, Bool.true_and] using hbit

/-- A table that undoes another undoes it in the field, and neither touches the bits beside it. -/
theorem tileRemap_tileRemap_of_leftInverse {inv : Fin 32 → Fin 32}
    (h : Function.LeftInverse inv table) : tileRemap P inv (tileRemap P table a) = a := by
  refine eq_of_tileField_eq (P := P) ?_ fun i hi => ?_
  · rw [tileField_tileRemap, tileField_tileRemap, h]
  · rw [tileRemap_getLsbD_of_outside hi, tileRemap_getLsbD_of_outside hi]

end TileRemap

/-! ## The lookup and its inverse, for every kind (R190 to R192) -/

theorem tileLookupInv_tileLookup {P : Params} (h : TileLaws P) (a : Word) (k : SurfaceKind) :
    tileLookupInv P (tileLookup P a k) k = a := by
  cases k with
  | tiled => exact tileRemap_tileRemap_of_leftInverse h.inv_table
  | linear => rfl
  | linearUnswizzled => rfl

theorem tileLookup_tileLookupInv {P : Params} (h : TileLaws P) (r : Word) (k : SurfaceKind) :
    tileLookup P (tileLookupInv P r k) k = r := by
  cases k with
  | tiled => exact tileRemap_tileRemap_of_leftInverse h.table_inv
  | linear => rfl
  | linearUnswizzled => rfl

/-! ## The obligation -/

/-- Settles O20: the tiled lookup is the remapping of the field by `KIND_TILE_TABLE`. -/
theorem tileLookupMovesOneField : Obligations.TileLookupMovesOneField := by
  intro P a
  refine ⟨fun i hi => tileRemap_getLsbD_of_outside hi, ?_,
    fun h k => ⟨tileLookupInv_tileLookup h a k, tileLookup_tileLookupInv h a k⟩,
    rfl, rfl, rfl, rfl⟩
  have hfield : tileField P (tileLookup P a .tiled) = P.kindTileTable (tileField P a) :=
    tileField_tileRemap
  rw [← tileField_val, hfield]
  rfl

end Sys2Proof.Machine

/-! PROOFS. partition_distributor: the split of an address and its recombination, and for each quotient
the rotation of the remainders and its inverse (spec/43_partition_distributor.md R210 to R215). -/

namespace Sys2Proof.Machine

/-! ## Division and rotation modulo `n` -/

theorem mul_add_div_of_lt {n r : Nat} (hr : r < n) (q : Nat) : (q * n + r) / n = q := by
  rw [Nat.mul_comm, Nat.mul_add_div (Nat.zero_lt_of_lt hr), Nat.div_eq_of_lt hr, Nat.add_zero]

theorem add_mod_of_sub_mod {n r : Nat} (hr : r < n) (f : Nat) :
    ((r + n - f % n) % n + f) % n = r := by
  have hf : f % n ≤ r + n := ((Nat.mod_lt f (by omega)).trans_le (Nat.le_add_left n r)).le
  rw [Nat.mod_add_mod, ← Nat.add_mod_mod, Nat.sub_add_cancel hf, Nat.add_mod_right,
    Nat.mod_eq_of_lt hr]

/-- Adding `f` modulo `n` is injective below `n`, and gives the same value for both sides. -/
theorem sub_mod_of_add_mod {n r : Nat} (hr : r < n) (f : Nat) :
    ((r + f) % n + n - f % n) % n = r := by
  have hn : 0 < n := Nat.zero_lt_of_lt hr
  have hrot : (((r + f) % n + n - f % n) % n + f) % n = (r + f) % n :=
    add_mod_of_sub_mod (Nat.mod_lt _ hn) f
  exact (Nat.ModEq.add_right_cancel' f hrot).eq_of_lt_of_lt (Nat.mod_lt _ hn) hr

section Partition

variable {c : Configuration} {pol : Policy}

/-! ## The split and its recombination (R210, R214) -/

theorem partitionSplit_eq (ksa : Nat) : partitionSplit c ksa =
    (ksa % cfgPIB c, ksa / cfgPIB c / cfgPC c, ksa / cfgPIB c % cfgPC c) := rfl

theorem partitionJoin_partitionSplit (ksa : Nat) :
    partitionJoin c (partitionSplit c ksa).2.1 (partitionSplit c ksa).2.2
      (partitionSplit c ksa).1 = ksa := by
  rw [partitionSplit_eq, partitionJoin, Nat.div_add_mod', Nat.div_add_mod']

/-- Both steps of the split are divisions, each of a multiple plus a smaller rest. -/
theorem partitionSplit_partitionJoin {r o : Nat} (hr : r < cfgPC c) (ho : o < cfgPIB c) (q : Nat) :
    partitionSplit c (partitionJoin c q r o) = (o, q, r) := by
  have hchunk : partitionJoin c q r o / cfgPIB c = q * cfgPC c + r := mul_add_div_of_lt ho _
  have hoffset : partitionJoin c q r o % cfgPIB c = o := Nat.mul_add_mod_of_lt ho
  rw [partitionSplit_eq, hchunk, hoffset, mul_add_div_of_lt hr, Nat.mul_add_mod_of_lt hr]

/-! ## The owning partition and the remainder recovery (R211, R215) -/

theorem partitionOf_of_pow2 (hpow : ∃ n, cfgPC c = 2 ^ n) (r q : Nat) :
    partitionOf c pol r q = r := if_pos ((isPow2_iff _).2 hpow)

theorem partitionOf_of_not_pow2 (hpow : ¬ ∃ n, cfgPC c = 2 ^ n) (r q : Nat) :
    partitionOf c pol r q = (r + pol.partCorr q) % cfgPC c := if_neg (mt (isPow2_iff _).1 hpow)

theorem remainderOf_of_pow2 (hpow : ∃ n, cfgPC c = 2 ^ n) (p q : Nat) :
    remainderOf c pol p q = p := if_pos ((isPow2_iff _).2 hpow)

theorem remainderOf_of_not_pow2 (hpow : ¬ ∃ n, cfgPC c = 2 ^ n) (p q : Nat) :
    remainderOf c pol p q = (p + cfgPC c - pol.partCorr q % cfgPC c) % cfgPC c :=
  if_neg (mt (isPow2_iff _).1 hpow)

theorem remainderOf_lt {p : Nat} (hp : p < cfgPC c) (q : Nat) :
    remainderOf c pol p q < cfgPC c := by
  by_cases hpow : ∃ n, cfgPC c = 2 ^ n
  · rwa [remainderOf_of_pow2 hpow]
  · rw [remainderOf_of_not_pow2 hpow]
    exact Nat.mod_lt _ (Nat.zero_lt_of_lt hp)

theorem remainderOf_partitionOf {r : Nat} (hr : r < cfgPC c) (q : Nat) :
    remainderOf c pol (partitionOf c pol r q) q = r := by
  by_cases hpow : ∃ n, cfgPC c = 2 ^ n
  · rw [partitionOf_of_pow2 hpow, remainderOf_of_pow2 hpow]
  · rw [partitionOf_of_not_pow2 hpow, remainderOf_of_not_pow2 hpow, sub_mod_of_add_mod hr]

theorem partitionOf_remainderOf {p : Nat} (hp : p < cfgPC c) (q : Nat) :
    partitionOf c pol (remainderOf c pol p q) q = p := by
  by_cases hpow : ∃ n, cfgPC c = 2 ^ n
  · rw [partitionOf_of_pow2 hpow, remainderOf_of_pow2 hpow]
  · rw [partitionOf_of_not_pow2 hpow, remainderOf_of_not_pow2 hpow, add_mod_of_sub_mod hp]

end Partition

/-! ## The obligations -/

/-- Settles O21: the split is two divisions with remainder, one after the other. -/
theorem partitionJoinInvertsSplit : Obligations.PartitionJoinInvertsSplit :=
  fun _ hpib hpc =>
    ⟨fun ksa => ⟨Nat.mod_lt _ hpib, Nat.mod_lt _ hpc, partitionJoin_partitionSplit ksa⟩,
      fun q _ _ hr ho => partitionSplit_partitionJoin hr ho q⟩

/-- Settles O22: the correction of the quotient rotates the remainders modulo `PC`, and the recovery
rotates them back. -/
theorem partitionOfIsARotation : Obligations.PartitionOfIsARotation :=
  fun _ _ q hpc r hr =>
    ⟨partitionOf_lt hpc hr q, remainderOf_lt hr q, remainderOf_partitionOf hr q,
      partitionOf_remainderOf hr q, fun hpow => partitionOf_of_pow2 hpow r q,
      fun hpow => partitionOf_of_not_pow2 hpow r q⟩

end Sys2Proof.Machine

/-! PROOFS. cache_address_hash: what combining a set with a fold undoes, and the hash of a quotient
and its inverse (spec/45_cache_address_hash.md R240 to R243). -/

namespace Sys2Proof.Machine

/-! ## The two ways of combining (R241 to R243) -/

section Combining

variable {s v : Nat} (op : Combine)

theorem combineInv_lt (hv : v < 2 ^ s) {h : Nat} (hh : h < 2 ^ s) :
    combineInv s op v h < 2 ^ s := by
  cases op with
  | xor => exact Nat.xor_lt_two_pow hv hh
  | addMod => exact Nat.mod_lt _ (Nat.two_pow_pos s)

/-- XOR is its own inverse, and a sum modulo `2^s` is undone by a difference modulo `2^s`. -/
theorem combineInv_combineFwd (hv : v < 2 ^ s) (h : Nat) :
    combineInv s op (combineFwd s op v h) h = v := by
  cases op with
  | xor => exact Nat.xor_xor_cancel_right v h
  | addMod => exact sub_mod_of_add_mod hv h

theorem combineFwd_combineInv (hv : v < 2 ^ s) (h : Nat) :
    combineFwd s op (combineInv s op v h) h = v := by
  cases op with
  | xor => exact Nat.xor_xor_cancel_right v h
  | addMod => exact add_mod_of_sub_mod hv h

end Combining

/-! ## The hash and its inverse (R240, R243) -/

section CacheHash

variable {c : Configuration} {pol : Policy}

/-- R240: the quotient is the tag above the known bits. -/
theorem l2Hash_mul_add {low : Nat} (hlow : low < 2 ^ cfgS c) (t : Nat) :
    l2Hash c pol (t * 2 ^ cfgS c + low) =
      (t, combineFwd (cfgS c) pol.l2Combine low (pol.l2Fold t)) := by
  rw [l2Hash, Nat.shiftRight_eq_div_pow, mul_add_div_of_lt hlow, Nat.mul_add_mod_of_lt hlow]

/-- Law R139 keeps the recovered bits below the tag, so the OR of R243 is a sum. -/
theorem l2Unhash_eq_mul_add (hfold : ∀ t, pol.l2Fold t < 2 ^ cfgS c) {v : Nat}
    (hv : v < 2 ^ cfgS c) (t : Nat) :
    l2Unhash c pol t v =
      t * 2 ^ cfgS c + combineInv (cfgS c) pol.l2Combine v (pol.l2Fold t) :=
  shiftLeft_or_of_lt _ _ _ (combineInv_lt _ hv (hfold t))

/-- Both directions fold the same tag, so the inverse removes the value that the hash put in. -/
theorem l2Unhash_l2Hash (hfold : ∀ t, pol.l2Fold t < 2 ^ cfgS c) (q : Nat) :
    l2Unhash c pol (l2Hash c pol q).1 (l2Hash c pol q).2 = q := by
  have hlow : q % 2 ^ cfgS c < 2 ^ cfgS c := Nat.mod_lt _ (Nat.two_pow_pos _)
  have hlow_back : combineInv (cfgS c) pol.l2Combine (l2Hash c pol q).2
      (pol.l2Fold (l2Hash c pol q).1) = q % 2 ^ cfgS c := combineInv_combineFwd _ hlow _
  rw [l2Unhash_eq_mul_add hfold (l2Hash_snd_lt hfold q), hlow_back, l2Hash_fst, Nat.div_add_mod']

theorem l2Hash_l2Unhash (hfold : ∀ t, pol.l2Fold t < 2 ^ cfgS c) {v : Nat}
    (hv : v < 2 ^ cfgS c) (t : Nat) : l2Hash c pol (l2Unhash c pol t v) = (t, v) := by
  rw [l2Unhash_eq_mul_add hfold hv, l2Hash_mul_add (combineInv_lt _ hv (hfold t)),
    combineFwd_combineInv _ hv]

end CacheHash

/-! ## The obligation -/

/-- Settles O23: combining with the fold of the tag is undone by the inverse with the same fold, and
the tag passes untouched. -/
theorem cacheHashInverts : Obligations.CacheHashInverts :=
  fun _ _ hfold =>
    ⟨fun q => ⟨l2Hash_fst q, l2Hash_snd_lt hfold q, l2Unhash_l2Hash hfold q⟩,
      fun t _ hv => l2Hash_l2Unhash hfold hv t⟩

end Sys2Proof.Machine

/-! PROOFS. dram_coordinate_mapper: the rotation of the low field bit by bit and its inverse, the
default ECC maps, row and column as one byte number, and the table fold as a sum over set bits
(spec/46_dram_coordinate_mapper.md R262 to R264, R269 to R271, R274, R275). -/

namespace Sys2Proof.Machine

/-! ## Rotating a field of `w` bits (R264, R275) -/

section Rotation

variable {w r lo : Nat}

theorem rotateLeft_lt (w r lo : Nat) : rotateLeft w r lo < 2 ^ w := Nat.mod_lt _ (Nat.two_pow_pos w)

theorem rotateRight_lt (w r lo : Nat) : rotateRight w r lo < 2 ^ w :=
  Nat.mod_lt _ (Nat.two_pow_pos w)

theorem testBit_above_field (hlo : lo < 2 ^ w) {j : Nat} (hj : w ≤ j) : lo.testBit j = false :=
  Nat.testBit_lt_two_pow (hlo.trans_le (Nat.pow_le_pow_right (by decide) hj))

/-- The one case split of the rotation: bit `i` moves up by `r` below the top, or wraps around. -/
theorem testBit_rotateLeft (hlo : lo < 2 ^ w) (hr : r < w) {i : Nat} (hi : i < w) :
    (rotateLeft w r lo).testBit ((i + r) % w) = lo.testBit i := by
  rw [rotateLeft, Nat.testBit_mod_two_pow, Nat.testBit_or, Nat.testBit_shiftLeft,
    Nat.testBit_shiftRight]
  rcases Nat.lt_or_ge (i + r) w with htop | htop
  · rw [Nat.mod_eq_of_lt htop, testBit_above_field hlo (j := w - r + (i + r)) (by omega)]
    simp [htop]
  · have hwrap : (i + r) % w = i + r - w := by
      rw [Nat.mod_eq_sub_mod htop, Nat.mod_eq_of_lt (by omega)]
    have hback : w - r + (i + r - w) = i := by omega
    have hbelow : ¬ r ≤ i + r - w := by omega
    have hfield : i + r - w < w := by omega
    rw [hwrap, hback]
    simp [hbelow, hfield]

theorem testBit_rotateRight (hlo : lo < 2 ^ w) (hr : r < w) {i : Nat} (hi : i < w) :
    (rotateRight w r lo).testBit i = lo.testBit ((i + r) % w) := by
  rw [rotateRight, Nat.testBit_mod_two_pow, Nat.testBit_or, Nat.testBit_shiftLeft,
    Nat.testBit_shiftRight]
  rcases Nat.lt_or_ge (i + r) w with htop | htop
  · have hbelow : ¬ w - r ≤ i := by omega
    rw [Nat.mod_eq_of_lt htop]
    simp [hi, hbelow, Nat.add_comm r i]
  · have hwrap : (i + r) % w = i - (w - r) := by
      rw [Nat.mod_eq_sub_mod htop, Nat.mod_eq_of_lt (by omega)]
      omega
    have habove : w - r ≤ i := by omega
    rw [hwrap, testBit_above_field hlo (j := r + i) (by omega)]
    simp [hi, habove]

/-- Values of one field are equal where their bits of that field are. -/
theorem eq_of_testBit_eq_below {x y : Nat} (hx : x < 2 ^ w) (hy : y < 2 ^ w)
    (h : ∀ i, i < w → x.testBit i = y.testBit i) : x = y := by
  refine Nat.eq_of_testBit_eq fun i => ?_
  rcases Nat.lt_or_ge i w with hi | hi
  · exact h i hi
  · rw [testBit_above_field hx hi, testBit_above_field hy hi]

theorem rotateRight_rotateLeft (hlo : lo < 2 ^ w) (hr : r < w) :
    rotateRight w r (rotateLeft w r lo) = lo :=
  eq_of_testBit_eq_below (rotateRight_lt ..) hlo fun _ hi => by
    rw [testBit_rotateRight (rotateLeft_lt ..) hr hi, testBit_rotateLeft hlo hr hi]

/-- Every bit of the field is the image `(i + r) mod w` of some bit `i`. -/
theorem rotateLeft_rotateRight (hlo : lo < 2 ^ w) (hr : r < w) :
    rotateLeft w r (rotateRight w r lo) = lo :=
  eq_of_testBit_eq_below (rotateLeft_lt ..) hlo fun j hj => by
    have hsource : (j + w - r % w) % w < w := Nat.mod_lt _ (Nat.zero_lt_of_lt hj)
    have hbit := testBit_rotateLeft (rotateRight_lt w r lo) hr hsource
    rwa [testBit_rotateRight hlo hr hsource, add_mod_of_sub_mod hj] at hbit

end Rotation

/-! ## What acts on the low field alone (R264) -/

section LowField

variable {w : Nat} {rot : Nat → Nat}

theorem onLowField_mod (hrot : ∀ lo, rot lo < 2 ^ w) (x : Nat) :
    onLowField w rot x % 2 ^ w = rot (x % 2 ^ w) := by
  have hhigh : x - x % 2 ^ w = x / 2 ^ w * 2 ^ w := Nat.sub_eq_of_eq_add (Nat.div_add_mod' ..).symm
  rw [onLowField, hhigh, Nat.mul_add_mod_of_lt (hrot _)]

theorem testBit_onLowField (hrot : ∀ lo, rot lo < 2 ^ w) (x : Nat) {j : Nat} (hj : j < w) :
    (onLowField w rot x).testBit j = (rot (x % 2 ^ w)).testBit j := by
  rw [← onLowField_mod hrot x, Nat.testBit_mod_two_pow, decide_eq_true hj, Bool.true_and]

/-- What is undone on the field is undone on the whole value, whose block does not move. -/
theorem onLowField_onLowField {inv : Nat → Nat} (hrot : ∀ lo, rot lo < 2 ^ w)
    (hinv : ∀ lo, inv lo < 2 ^ w) (hundo : ∀ lo, lo < 2 ^ w → inv (rot lo) = lo) (x : Nat) :
    onLowField w inv (onLowField w rot x) = x := by
  have hdiv : onLowField w inv (onLowField w rot x) / 2 ^ w = x / 2 ^ w := by
    rw [onLowField_div hinv, onLowField_div hrot]
  have hmod : onLowField w inv (onLowField w rot x) % 2 ^ w = x % 2 ^ w := by
    rw [onLowField_mod hinv, onLowField_mod hrot, hundo _ (Nat.mod_lt _ (Nat.two_pow_pos w))]
  rw [← Nat.div_add_mod (onLowField w inv _) (2 ^ w), hdiv, hmod, Nat.div_add_mod]

end LowField

/-! ## The bank swizzle (R264, R275) -/

section BankRotate

variable {P : Params} {c : Configuration}

theorem bankRotate_of_off (h : c.bankSwizzleEnabled = false ∨ P.bankRotWidth = 0) (x : Nat) :
    bankRotate P c x = x := if_pos (by simpa using h)

theorem bankRotateInv_of_off (h : c.bankSwizzleEnabled = false ∨ P.bankRotWidth = 0) (x : Nat) :
    bankRotateInv P c x = x := if_pos (by simpa using h)

theorem bankRotate_of_on (h : ¬ (c.bankSwizzleEnabled = false ∨ P.bankRotWidth = 0)) (x : Nat) :
    bankRotate P c x = onLowField P.bankRotWidth
      (rotateLeft P.bankRotWidth (P.bankRotAmount % P.bankRotWidth)) x := if_neg (by simpa using h)

theorem bankRotateInv_of_on (h : ¬ (c.bankSwizzleEnabled = false ∨ P.bankRotWidth = 0)) (x : Nat) :
    bankRotateInv P c x = onLowField P.bankRotWidth
      (rotateRight P.bankRotWidth (P.bankRotAmount % P.bankRotWidth)) x := if_neg (by simpa using h)

/-- A rotation takes place only in a field that has bits. -/
theorem bankRotAmount_mod_lt (h : ¬ (c.bankSwizzleEnabled = false ∨ P.bankRotWidth = 0)) :
    P.bankRotAmount % P.bankRotWidth < P.bankRotWidth :=
  Nat.mod_lt _ (Nat.pos_of_ne_zero (not_or.1 h).2)

theorem bankRotateInv_bankRotate (P : Params) (c : Configuration) (x : Nat) :
    bankRotateInv P c (bankRotate P c x) = x := by
  by_cases h : c.bankSwizzleEnabled = false ∨ P.bankRotWidth = 0
  · rw [bankRotate_of_off h, bankRotateInv_of_off h]
  · rw [bankRotate_of_on h, bankRotateInv_of_on h]
    exact onLowField_onLowField (rotateLeft_lt _ _) (rotateRight_lt _ _)
      (fun _ hlo => rotateRight_rotateLeft hlo (bankRotAmount_mod_lt h)) x

theorem bankRotate_bankRotateInv (P : Params) (c : Configuration) (x : Nat) :
    bankRotate P c (bankRotateInv P c x) = x := by
  by_cases h : c.bankSwizzleEnabled = false ∨ P.bankRotWidth = 0
  · rw [bankRotateInv_of_off h, bankRotate_of_off h]
  · rw [bankRotateInv_of_on h, bankRotate_of_on h]
    exact onLowField_onLowField (rotateRight_lt _ _) (rotateLeft_lt _ _)
      (fun _ hlo => rotateLeft_rotateRight hlo (bankRotAmount_mod_lt h)) x

theorem testBit_bankRotate (hflag : c.bankSwizzleEnabled = true) (x : Nat) {i : Nat}
    (hi : i < P.bankRotWidth) :
    (bankRotate P c x).testBit ((i + P.bankRotAmount) % P.bankRotWidth) = x.testBit i := by
  have hw : 0 < P.bankRotWidth := Nat.zero_lt_of_lt hi
  have hon : ¬ (c.bankSwizzleEnabled = false ∨ P.bankRotWidth = 0) := by simp [hflag, hw.ne']
  rw [bankRotate_of_on hon, testBit_onLowField (rotateLeft_lt _ _) x (Nat.mod_lt _ hw),
    ← Nat.add_mod_mod,
    testBit_rotateLeft (Nat.mod_lt _ (Nat.two_pow_pos _)) (bankRotAmount_mod_lt hon) hi,
    Nat.testBit_mod_two_pow, decide_eq_true hi, Bool.true_and]

end BankRotate

/-! ## The default ECC maps (R262, R263) -/

section EccDefaults

variable {P : Params}

theorem EccDefault.expand_compact_iff (h : EccDefault P) (x : Nat) :
    P.eccExpand (P.eccCompact x) = x ↔ x % 16 ≠ 15 := by
  rw [h.compact, h.expand]
  omega

/-- Both units beside a multiple of 16 are compacted to the one below it, which expands upwards. -/
theorem EccDefault.aliases (h : EccDefault P) (n : Nat) :
    P.eccCompact (16 * n + 15) = 15 * n + 15 ∧ P.eccCompact (16 * (n + 1)) = 15 * n + 15 ∧
      P.eccExpand (15 * n + 15) = 16 * (n + 1) := by
  rw [h.compact, h.compact, h.expand]
  omega

theorem EccDefault.laws (h : EccDefault P) : EccLaws P where
  compact_expand y := by
    rw [h.compact, h.expand]
    omega
  compact_mono x y hxy := by
    rw [h.compact, h.compact]
    omega
  expand_mono x y hxy := by
    rw [h.expand, h.expand]
    omega
  compact_le x := h.compact x ▸ Nat.sub_le _ _

end EccDefaults

/-! ## Row and column (R271, R274) -/

/-- The row and the column name a byte number down to its granule. -/
theorem row_add_column_eq {page gran : Nat} (hdvd : gran ∣ page) (b : Nat) :
    b / page * page + b % page / gran * gran = b - b % gran := by
  have hrest : b % page % gran = b % gran := Nat.mod_mod_of_dvd b hdvd
  have hcolumn := Nat.div_add_mod' (b % page) gran
  have hrow := Nat.div_add_mod' b page
  omega

theorem rowColInv_rowCol {P : Params} {c : Configuration} (hcfg : configOk P c = true)
    {offset : Nat} (ho : offset < cfgPIB c) (group : Nat) :
    rowColInv c (rowCol c group offset).1 (rowCol c group offset).2 =
      (group, offset - offset % cfgGRAN c) := by
  have hrest : (group * cfgPIB c + offset) % cfgGRAN c = offset % cfgGRAN c := by
    rw [Nat.add_mod, Nat.mod_eq_zero_of_dvd ((cfgGRAN_dvd_cfgPIB hcfg).mul_left group),
      Nat.zero_add, Nat.mod_mod]
  have hbyte : (rowCol c group offset).1 * cfgPAGE c + (rowCol c group offset).2 * cfgGRAN c =
      group * cfgPIB c + (offset - offset % cfgGRAN c) := by
    rw [rowCol, row_add_column_eq (cfgGRAN_dvd_cfgPAGE hcfg), hrest,
      Nat.add_sub_assoc (Nat.mod_le _ _)]
  have hlt : offset - offset % cfgGRAN c < cfgPIB c := (Nat.sub_le _ _).trans_lt ho
  rw [rowColInv, hbyte, mul_add_div_of_lt hlt, Nat.mul_add_mod_of_lt hlt]

/-! ## The table fold (R270) -/

/-- The first element stands for bit 0, the rest for the bits above it. -/
theorem tableFold_eq_foldr (T : List Nat) (bits : Nat) :
    tableFold T bits = ((List.range T.length).filter fun i => bits.testBit i).foldr
      (fun i acc => T.getD i 0 ^^^ acc) 0 := by
  induction T generalizing bits with
  | nil => rfl
  | cons t ts ih =>
    rw [tableFold, ih, List.length_cons, List.range_succ_eq_map, List.filter_cons,
      List.filter_map, Nat.testBit_zero]
    have hrest : (fun i => bits.testBit i) ∘ Nat.succ = fun i => (bits / 2).testBit i :=
      funext fun i => Nat.testBit_succ bits i
    rw [hrest]
    by_cases hbit : bits % 2 = 1
    · simp [hbit, List.foldr_map]
    · simp [hbit, List.foldr_map]

theorem bankHashOf_tableFold_eq (baseShift : Nat) (T : List Nat) (row : Nat) :
    bankHashOf (.tableFold baseShift T) row =
      ((List.range T.length).filter fun i => row.testBit (baseShift + i)).foldr
        (fun i acc => T.getD i 0 ^^^ acc) 0 := by
  rw [bankHashOf, tableFold_eq_foldr]
  simp only [Nat.testBit_shiftRight]

/-! ## The obligations -/

/-- Settles O24: the field is rotated bit by bit, and the bits above it do not move. -/
theorem bankRotateInverts : Obligations.BankRotateInverts :=
  fun P c x =>
    ⟨bankRotateInv_bankRotate P c x, bankRotate_bankRotateInv P c x, bankRotate_div P c x,
      fun hflag _ hi => testBit_bankRotate hflag x hi, fun hoff => bankRotate_of_off hoff x⟩

/-- Settles O26: the row and the column are the byte number down to the granule, and `GRAN` divides
both `PAGE` and `PIB`. -/
theorem rowColInverts : Obligations.RowColInverts :=
  fun _ _ group offset hcfg ho => ⟨rowCol_snd_lt hcfg group offset, rowColInv_rowCol hcfg ho group⟩

/-- Settles O27, by induction on the table. -/
theorem bankHashFoldsSetBits : Obligations.BankHashFoldsSetBits :=
  ⟨fun _ _ => rfl, fun baseShift T row =>
    ⟨bankHashOf_tableFold_eq baseShift T row, fun _ hT => tableFold_lt hT _⟩⟩

/-- Settles O25: the default maps drop and restore every sixteenth unit. -/
theorem eccAliasing : Obligations.EccAliasing :=
  fun _ h => ⟨h.laws.compact_expand, h.expand_compact_iff, h.aliases, h.laws⟩

end Sys2Proof.Machine

/-! PROOFS. ENCODE: the bytes under `pageMask`, the words that ENCODE reads, its values as the
equations of the inverse stages (spec/47_address_interleave_encoder.md R304), and what DECODE and
ENCODE undo of each other (R312 to R314). -/

namespace Sys2Proof.Machine

/-! ## The bytes under `pageMask` (R312) -/

section Granule

variable {P : Params} {c : Configuration}

theorem toNat_and_pageMaskWord (hcfg : configOk P c = true) (x : Word) :
    (x &&& pageMaskWord c).toNat = x.toNat % cfgGRAN c := by
  obtain ⟨g, -, hg⟩ := cfgGRAN_eq_two_pow hcfg
  have hmask : pageMask c < 2 ^ 64 := (Nat.sub_le _ _).trans_lt (BitVec.isLt _)
  rw [BitVec.toNat_and, pageMaskWord, BitVec.toNat_ofNat, Nat.mod_eq_of_lt hmask, pageMask, hg,
    Nat.and_two_pow_sub_one_eq_mod]

/-- A word is its granule and the bytes in it. -/
theorem eq_of_pageMaskWord_eq {x y : Word} (hin : x &&& pageMaskWord c = y &&& pageMaskWord c)
    (hout : x &&& ~~~pageMaskWord c = y &&& ~~~pageMaskWord c) : x = y := by
  have hsplit : ∀ z : Word, (z &&& pageMaskWord c) ||| (z &&& ~~~pageMaskWord c) = z := fun z => by
    rw [← BitVec.and_or_distrib_left, BitVec.or_not_self, BitVec.and_allOnes]
  rw [← hsplit x, hin, hout, hsplit y]

theorem and_not_pageMaskWord_and (x : Word) : x &&& ~~~pageMaskWord c &&& pageMaskWord c = 0 := by
  rw [BitVec.and_assoc, BitVec.and_comm (~~~_), BitVec.and_not_self]
  exact BitVec.and_zero

theorem and_not_pageMaskWord_idem (x : Word) :
    x &&& ~~~pageMaskWord c &&& ~~~pageMaskWord c = x &&& ~~~pageMaskWord c := by
  rw [BitVec.and_assoc, BitVec.and_self]

theorem toNat_and_not_pageMaskWord (hcfg : configOk P c = true) (x : Word) :
    (x &&& ~~~pageMaskWord c).toNat = x.toNat - x.toNat % cfgGRAN c := by
  obtain ⟨g, -, hg⟩ := cfgGRAN_eq_two_pow hcfg
  have hmod : (x &&& ~~~pageMaskWord c).toNat % cfgGRAN c = 0 := by
    rw [← toNat_and_pageMaskWord hcfg, and_not_pageMaskWord_and]
    rfl
  have hdiv : (x &&& ~~~pageMaskWord c).toNat / cfgGRAN c = x.toNat / cfgGRAN c :=
    hg ▸ toNat_div_eq_of_getLsbD_eq
      ((and_not_pageMaskWord_eq_iff hg).1 (and_not_pageMaskWord_idem x))
  have hclear := Nat.div_add_mod (x &&& ~~~pageMaskWord c).toNat (cfgGRAN c)
  have hx := Nat.div_add_mod x.toNat (cfgGRAN c)
  rw [hdiv] at hclear
  omega

/-- R190: the lookup field lies above the granule (item 9). -/
theorem tileLookup_and_pageMaskWord (hcfg : configOk P c = true) (a : Word) (k : SurfaceKind) :
    tileLookup P a k &&& pageMaskWord c = a &&& pageMaskWord c := by
  cases k with
  | tiled =>
    obtain ⟨g, hle, hg⟩ := cfgGRAN_eq_two_pow hcfg
    refine BitVec.eq_of_getLsbD_eq fun i _ => ?_
    rw [BitVec.getLsbD_and, BitVec.getLsbD_and, pageMaskWord, pageMask, hg, BitVec.getLsbD_ofNat,
      Nat.testBit_two_pow_sub_one]
    by_cases hi : i < g
    · rw [tileLookup, tileRemap_getLsbD_of_outside (.inl (hi.trans_le hle))]
    · simp [hi]
  | linear => rfl
  | linearUnswizzled => rfl

theorem tileLookup_and_not_pageMaskWord (hcfg : configOk P c = true) (a : Word) (k : SurfaceKind) :
    tileLookup P (a &&& ~~~pageMaskWord c) k = tileLookup P a k &&& ~~~pageMaskWord c := by
  obtain ⟨g, hle, hg⟩ := cfgGRAN_eq_two_pow hcfg
  refine eq_of_pageMaskWord_eq (c := c) ?_ ?_
  · rw [tileLookup_and_pageMaskWord hcfg, and_not_pageMaskWord_and, and_not_pageMaskWord_and]
  · rw [and_not_pageMaskWord_idem, and_not_pageMaskWord_eq_iff hg]
    exact tileLookup_getLsbD_eq hle
      ((and_not_pageMaskWord_eq_iff hg).1 (and_not_pageMaskWord_idem a)) k

end Granule

/-! ## What the inverse stages undo -/

section InverseStages

variable {P : Params} {c : Configuration}

/-- R274, R271: a row and a column in the page come back. -/
theorem rowCol_rowColInv (hcfg : configOk P c = true) {column : Nat}
    (hcolumn : column < cfgPAGE c / cfgGRAN c) (row : Nat) :
    rowCol c (rowColInv c row column).1 (rowColInv c row column).2 = (row, column) := by
  have hgran : 0 < cfgGRAN c := by
    obtain ⟨g, -, hg⟩ := cfgGRAN_eq_two_pow hcfg
    exact hg ▸ Nat.two_pow_pos g
  have hbytes : column * cfgGRAN c < cfgPAGE c :=
    (Nat.mul_lt_mul_of_pos_right hcolumn hgran).trans_le (Nat.div_mul_le_self _ _)
  rw [rowColInv, rowCol, Nat.div_add_mod', mul_add_div_of_lt hbytes,
    Nat.mul_add_mod_of_lt hbytes, Nat.mul_div_cancel _ hgran]

/-- The recovered offset is on a granule (items 6 and 7). -/
theorem rowColInv_snd_mod (hcfg : configOk P c = true) (row column : Nat) :
    (rowColInv c row column).2 % cfgGRAN c = 0 := by
  rw [rowColInv, Nat.mod_mod_of_dvd _ (cfgGRAN_dvd_cfgPIB hcfg)]
  exact Nat.mod_eq_zero_of_dvd
    (((cfgGRAN_dvd_cfgPAGE hcfg).mul_left row).add (Nat.dvd_mul_left _ column))

theorem partitionJoin_mod (hcfg : configOk P c = true) (q r o : Nat) :
    partitionJoin c q r o % cfgGRAN c = o % cfgGRAN c := by
  rw [partitionJoin, Nat.add_mod, Nat.mod_eq_zero_of_dvd ((cfgGRAN_dvd_cfgPIB hcfg).mul_left _),
    Nat.zero_add, Nat.mod_mod]

/-- R268, R273: the swizzle value is taken off as it was put on. -/
theorem bankSwap_of_bankSwap {sw bank rank bank0 rank0 : Nat}
    (h : (bank, rank) = bankSwap c sw bank0 rank0) : bankSwap c sw bank rank = (bank0, rank0) := by
  obtain ⟨rfl, rfl⟩ := Prod.mk.inj h
  rw [bankSwap, Nat.xor_xor_cancel_right, Nat.xor_xor_cancel_right]

theorem xbarCompose_div_mod (x : Nat) :
    xbarCompose c (x / 2 ^ cfgS c) (x % 2 ^ cfgS c) = x := by
  rw [xbarCompose, shiftLeft_or_of_lt _ _ _ (Nat.mod_lt _ (Nat.two_pow_pos _)), Nat.div_add_mod']

theorem xbarCompose_mod {v : Nat} (t : Nat) (hv : v < 2 ^ cfgS c) :
    xbarCompose c t v % 2 ^ cfgS c = v := by
  rw [xbarCompose, shiftLeft_or_of_lt _ _ _ hv, Nat.mul_add_mod_of_lt hv]

theorem eccMap_eccMapInv (hecc : EccLaws P) (y : Nat) : eccMap P c (eccMapInv P c y) = y := by
  rw [eccMap, eccMapInv]
  split_ifs
  · exact hecc.compact_expand y
  · rfl

/-- R263: with ECC on, the unit before a multiple of 16 comes back as that multiple. -/
theorem eccMapInv_eccMap_of_alias (hecc : EccDefault P) {x : Nat} (hon : c.eccEnabled = true)
    (hx : x % 16 = 15) : eccMapInv P c (eccMap P c x) = x + 1 := by
  rw [eccMap, eccMapInv, if_pos hon, if_pos hon, hecc.compact, hecc.expand]
  omega

/-- R263: every other address comes back. -/
theorem eccMapInv_eccMap_of_not_alias (hecc : EccDefault P) {x : Nat}
    (hx : ¬ (c.eccEnabled = true ∧ x % 16 = 15)) : eccMapInv P c (eccMap P c x) = x := by
  rw [eccMap, eccMapInv]
  split_ifs with hon
  · exact (hecc.expand_compact_iff x).2 fun h15 => hx ⟨hon, h15⟩
  · rfl

end InverseStages

/-- R192, R143: nor does the inverse lookup touch the bytes of the granule. -/
theorem tileLookupInv_and_pageMaskWord {P : Params} {c : Configuration} (hcfg : configOk P c = true)
    (htile : TileLaws P) (r : Word) (k : SurfaceKind) :
    tileLookupInv P r k &&& pageMaskWord c = r &&& pageMaskWord c := by
  rw [← tileLookup_and_pageMaskWord hcfg, tileLookup_tileLookupInv htile]

/-- R194, R136. -/
theorem kindHashInv_and_pageMaskWord {c : Configuration} {ks : KsEntry} (hks : KsLaws c ks)
    (y : Word) : kindHashInv ks y &&& pageMaskWord c = y &&& pageMaskWord c := by
  rw [kindHashInv, ← hks.hash_mask, hks.hash_hashInv]

/-! ## The words that ENCODE reads (R302) -/

/-- The five words that ENCODE reads agree. -/
structure SameReadWords (l l' : PhysicalLocation) : Prop where
  partitionId : l.partitionId = l'.partitionId
  rankId : l.rankId = l'.rankId
  bankId : l.bankId = l'.bankId
  rowId : l.rowId = l'.rowId
  columnId : l.columnId = l'.columnId

theorem inRange_congr {l l' : PhysicalLocation} (h : SameReadWords l l') (c : Configuration) :
    inRange c l = inRange c l' := by
  simp only [inRange, h.partitionId, h.bankId, h.rankId, h.columnId]

theorem encodePipeline_congr {l l' : PhysicalLocation} (h : SameReadWords l l') (P : Params)
    (pol : Policy) (ks : KsEntry) (c : Configuration) (k : SurfaceKind) :
    encodePipeline P pol ks c l k = encodePipeline P pol ks c l' k := by
  simp only [encodePipeline, h.partitionId, h.bankId, h.rankId, h.rowId, h.columnId]

theorem encodeReply_congr {l l' : PhysicalLocation} (h : SameReadWords l l') (P : Params)
    (e : Engine) (trace : Bool) (kind : Option SurfaceKind) (page : Option PageSizeClass)
    (eccOn : Bool) :
    encodeReply P e trace l kind page eccOn = encodeReply P e trace l' kind page eccOn := by
  simp only [encodeReply, inRange_congr h, encodePipeline_congr h]

/-- The words that ENCODE reads hold these coordinates. -/
structure ReadWordsHold (l : PhysicalLocation) (x : Coordinates) : Prop where
  partitionId : l.partitionId.toNat = x.partitionId
  rankId : l.rankId.toNat = x.rankId
  bankId : l.bankId.toNat = x.bankId
  rowId : l.rowId.toNat = x.rowId
  columnId : l.columnId.toNat = x.columnId

/-- R102: words that hold the coordinates are the ones they are reported in. -/
theorem ReadWordsHold.sameReadWords {l : PhysicalLocation} {x : Coordinates}
    (h : ReadWordsHold l x) (s : Nat) : SameReadWords (coordinatesLocation s x) l := by
  have hword : ∀ {w : Word} {v : Nat}, w.toNat = v → zext64 v = w := fun {w _} hw =>
    BitVec.eq_of_toNat_eq (by rw [← hw, zext64_toNat w.isLt])
  exact ⟨hword h.partitionId, hword h.rankId, hword h.bankId, hword h.rowId, hword h.columnId⟩

/-! ## The pipeline as equations (R304) -/

/-- Each value of an ENCODE by the rule of its inverse stage, from the values before it (R304). -/
structure UndoesStages (P : Params) (pol : Policy) (ks : KsEntry) (c : Configuration)
    (l : PhysicalLocation) (k : SurfaceKind) (v : Encoded) : Prop where
  bankHash : v.trace.bankHash = bankHashOf pol.bankHash l.rowId.toNat
  tmp : v.trace.tmp = P.bankPermInv (cfgNB c) (cfgExt c)
    (bankSwap c v.trace.bankHash l.bankId.toNat l.rankId.toNat).1
    (bankSwap c v.trace.bankHash l.bankId.toNat l.rankId.toNat).2
  group_offset :
    (v.trace.rawBankGroup, v.trace.offset) = rowColInv c l.rowId.toNat l.columnId.toNat
  bankAddress : v.trace.bankAddress = v.trace.rawBankGroup * cfgG c + v.trace.tmp
  eccAddress : v.trace.eccAddress = bankRotateInv P c v.trace.bankAddress
  xbar : v.trace.xbarRawAddress = eccMapInv P c v.trace.eccAddress
  quotient : v.trace.quotient = l2Unhash c pol (v.trace.xbarRawAddress / 2 ^ cfgS c)
    (v.trace.xbarRawAddress % 2 ^ cfgS c)
  remainder : v.trace.remainder = remainderOf c pol l.partitionId.toNat v.trace.quotient
  kindSwizzledAddress : v.trace.kindSwizzledAddress =
    partitionJoin c v.trace.quotient v.trace.remainder v.trace.offset
  byteOffset : v.byteOffset =
    tileLookupInv P (kindHashInv ks (BitVec.ofNat 64 v.trace.kindSwizzledAddress)) k

theorem encodeValues_undoesStages (P : Params) (pol : Policy) (ks : KsEntry) (c : Configuration)
    (l : PhysicalLocation) (k : SurfaceKind) :
    UndoesStages P pol ks c l k (encodeValues P pol ks c l k) where
  bankHash := rfl
  tmp := rfl
  group_offset := rfl
  bankAddress := by
    rw [cfgG_eq]
    rfl
  eccAddress := rfl
  xbar := rfl
  quotient := (l2Unhash_eq c pol _ _).symm
  remainder := rfl
  kindSwizzledAddress := rfl
  byteOffset := (tileLookupInv_eq P _ k).symm

/-- The overflow checks of R309 pass. -/
structure Encoded.Fits (v : Encoded) : Prop where
  bankAddress : v.trace.bankAddress < 2 ^ 64
  xbar : v.trace.xbarRawAddress < 2 ^ 64
  kindSwizzledAddress : v.trace.kindSwizzledAddress < 2 ^ 64

/-! ## The words of a successful ENCODE (R103, R301) -/

theorem take_encodePayload_eq_iff (trace : Bool) (k : SurfaceKind) (p : PageSizeClass) (v : Encoded)
    (a : Word) :
    (encodePayload trace k p v).take [a, modeWord (some k) (some p)].length =
      [a, modeWord (some k) (some p)] ↔ v.byteOffset = a := by
  simp [encodePayload]

section EncodeAnswer

variable {P : Params} {c : Configuration} {k : SurfaceKind} {p : PageSizeClass} {ks : KsEntry}
  {pol : Policy}

/-- R303, R309: what is left to check once the kind and page have an entry. -/
theorem encodeReply_of_fits (trace : Bool) {l : PhysicalLocation} (hks : lookupKs P c p k = some ks)
    (hpol : resolvePolicy P c = some pol) (hin : inRange c l = true)
    (hfits : (encodeValues P pol ks c l k).Fits) :
    encodeReply P ⟨true, c⟩ trace l (some k) (some p) c.eccEnabled =
      respond .ok (encodePayload trace k p (encodeValues P pol ks c l k)) := by
  obtain ⟨hpart, hbank, hrank, hcol⟩ := (inRange_iff c l).1 hin
  rw [encodeReply_of_entry trace l rfl rfl hks hpol rfl]
  exact if_pos ⟨hpart, hbank, hrank, hcol, hfits.bankAddress, hfits.xbar, hfits.kindSwizzledAddress⟩

theorem encodeReply_of_not_fits (trace : Bool) {l : PhysicalLocation}
    (hks : lookupKs P c p k = some ks) (hpol : resolvePolicy P c = some pol)
    (hbad : ¬ (inRange c l = true ∧ (encodeValues P pol ks c l k).Fits)) :
    encodeReply P ⟨true, c⟩ trace l (some k) (some p) c.eccEnabled = raise .invalidLocation := by
  rw [encodeReply_of_entry trace l rfl rfl hks hpol rfl]
  refine if_neg ?_
  rintro ⟨hpart, hbank, hrank, hcol, haddr, hxbar, hksa⟩
  exact hbad ⟨(inRange_iff c l).2 ⟨hpart, hbank, hrank, hcol⟩, haddr, hxbar, hksa⟩

end EncodeAnswer

/-- An ENCODE answers OK with a byte offset exactly where no check of R301 applies and the offset is
the one that the inverse stages compute. -/
theorem answersOk_encodeReply_iff {P : Params} {c : Configuration} {trace : Bool}
    {l : PhysicalLocation} {k : SurfaceKind} {p : PageSizeClass} {eccOn : Bool} {a : Word} :
    answersOk (encodeReply P ⟨true, c⟩ trace l (some k) (some p) eccOn)
        [a, modeWord (some k) (some p)] ↔
      eccOn = c.eccEnabled ∧ ∃ ks pol, lookupKs P c p k = some ks ∧
        resolvePolicy P c = some pol ∧ inRange c l = true ∧
        (encodeValues P pol ks c l k).Fits ∧ (encodeValues P pol ks c l k).byteOffset = a := by
  constructor
  · rintro ⟨hst, hpay⟩
    by_cases hecc : eccOn = c.eccEnabled
    case neg => simp [encodeReply_of_ecc_ne (e := ⟨true, c⟩) trace l rfl hecc] at hst
    subst hecc
    rcases hks : lookupKs P c p k with _ | ks
    · simp [encodeReply_of_no_entry (e := ⟨true, c⟩) trace l rfl rfl hks] at hst
    rcases hpol : resolvePolicy P c with _ | pol
    · simp [encodeReply_of_no_policy (e := ⟨true, c⟩) trace l rfl rfl hpol] at hst
    by_cases hok : inRange c l = true ∧ (encodeValues P pol ks c l k).Fits
    case neg => simp [encodeReply_of_not_fits trace hks hpol hok] at hst
    obtain ⟨hin, hfits⟩ := hok
    rw [encodeReply_of_fits trace hks hpol hin hfits] at hpay
    exact ⟨rfl, ks, pol, rfl, rfl, hin, hfits, (take_encodePayload_eq_iff ..).1 hpay⟩
  · rintro ⟨rfl, ks, pol, hks, hpol, hin, hfits, ha⟩
    rw [encodeReply_of_fits trace hks hpol hin hfits]
    exact ⟨rfl, (take_encodePayload_eq_iff ..).2 ha⟩

/-! ## The byte offset of an ENCODE (R312) -/

section EncodeBounds

variable {P : Params} {pol : Policy} {ks : KsEntry} {c : Configuration} {l : PhysicalLocation}
  {k : SurfaceKind} {v : Encoded}

theorem UndoesStages.group_eq (u : UndoesStages P pol ks c l k v) :
    v.trace.rawBankGroup = (rowColInv c l.rowId.toNat l.columnId.toNat).1 :=
  congrArg Prod.fst u.group_offset

theorem UndoesStages.offset_eq (u : UndoesStages P pol ks c l k v) :
    v.trace.offset = (rowColInv c l.rowId.toNat l.columnId.toNat).2 :=
  congrArg Prod.snd u.group_offset

theorem UndoesStages.offset_lt (u : UndoesStages P pol ks c l k v) (hcfg : configOk P c = true) :
    v.trace.offset < cfgPIB c :=
  u.offset_eq ▸ Nat.mod_lt _ (cfgPIB_pos hcfg)

theorem UndoesStages.kindSwizzledAddress_mod (u : UndoesStages P pol ks c l k v)
    (hcfg : configOk P c = true) : v.trace.kindSwizzledAddress % cfgGRAN c = 0 := by
  rw [u.kindSwizzledAddress, partitionJoin_mod hcfg, u.offset_eq, rowColInv_snd_mod hcfg]

/-- The inverse stages start from an aligned offset, and stage 1 inverse keeps the bytes of a
granule. -/
theorem UndoesStages.byteOffset_and_pageMaskWord (u : UndoesStages P pol ks c l k v)
    (hcfg : configOk P c = true) (htile : TileLaws P) (hks : KsLaws c ks)
    (hfits : v.Fits) : v.byteOffset &&& pageMaskWord c = 0 := by
  rw [u.byteOffset, tileLookupInv_and_pageMaskWord hcfg htile, kindHashInv_and_pageMaskWord hks]
  refine BitVec.eq_of_toNat_eq ?_
  rw [toNat_and_pageMaskWord hcfg, BitVec.toNat_ofNat, Nat.mod_eq_of_lt hfits.kindSwizzledAddress,
    u.kindSwizzledAddress_mod hcfg]
  rfl

end EncodeBounds

/-! ## ENCODE after DECODE (R313) -/

section EncodeAfterDecode

variable {P : Params} {pol : Policy} {ks : KsEntry} {c : Configuration} {a : Word}
  {k : SurfaceKind} {d : Decoded} {l : PhysicalLocation} {v : Encoded}

/-- What DECODE computes fits the words that ENCODE reads (R174). -/
theorem FollowsStages.readWordsHold (h : FollowsStages P pol ks c a k d)
    (hcfg : configOk P c = true) (hrange : InDecodeRange P c d.loc)
    (hbank : d.trace.bankAddress < 2 ^ 64) :
    ReadWordsHold (coordinatesLocation (cfgS c) d.loc) d.loc where
  partitionId := zext64_toNat (hrange.partitionId.trans (BitVec.isLt _))
  rankId := zext64_toNat (hrange.rankId.trans_le (two_pow_le_word (cfgExt_le hcfg)))
  bankId := zext64_toNat (hrange.bankId.trans (BitVec.isLt _))
  rowId := zext64_toNat (h.rowId_lt hcfg hbank)
  columnId := zext64_toNat ((hrange.columnId.trans_le (Nat.div_le_self _ _)).trans (BitVec.isLt _))

theorem ReadWordsHold.inRange (hl : ReadWordsHold l d.loc) (hrange : InDecodeRange P c d.loc) :
    inRange c l = true :=
  (inRange_iff c l).2 ⟨hl.partitionId ▸ hrange.partitionId, hl.bankId ▸ hrange.bankId,
    hl.rankId ▸ hrange.rankId, hl.columnId ▸ hrange.columnId⟩

/-- R313 point 1: the bank group comes back, and the offset but for the bytes of its granule. -/
theorem UndoesStages.group_offset_of_decode (u : UndoesStages P pol ks c l k v)
    (h : FollowsStages P pol ks c a k d) (hl : ReadWordsHold l d.loc)
    (hcfg : configOk P c = true) :
    v.trace.rawBankGroup = d.trace.rawBankGroup ∧
      v.trace.offset = d.trace.offset - d.trace.offset % cfgGRAN c := by
  have hoffset : d.trace.offset < cfgPIB c := h.offset ▸ Nat.mod_lt _ (cfgPIB_pos hcfg)
  have hback := u.group_offset
  rw [hl.rowId, hl.columnId, h.rowId, h.columnId, rowColInv_rowCol hcfg hoffset] at hback
  exact Prod.mk.inj hback

/-- R313 point 2: the same row gives the same swizzle, so the bank address comes back. -/
theorem UndoesStages.bankAddress_of_decode (u : UndoesStages P pol ks c l k v)
    (h : FollowsStages P pol ks c a k d) (hl : ReadWordsHold l d.loc)
    (hcfg : configOk P c = true) (hperm : BankPermLaws P c) :
    v.trace.bankAddress = d.trace.bankAddress := by
  have hG : 0 < cfgG c := by
    obtain ⟨n, -, hG⟩ := cfgG_eq_two_pow hcfg
    exact hG ▸ Nat.two_pow_pos n
  have hsw : v.trace.bankHash = d.trace.bankHash := by rw [u.bankHash, hl.rowId, h.bankHash]
  have hswap : bankSwap c v.trace.bankHash l.bankId.toNat l.rankId.toNat =
      P.bankPerm (cfgNB c) (cfgExt c) d.trace.tmp := by
    rw [hsw, hl.bankId, hl.rankId]
    exact bankSwap_of_bankSwap h.bank_rank
  have htmp : v.trace.tmp = d.trace.tmp := by
    rw [u.tmp, hswap]
    exact hperm.inv_perm _ (h.tmp ▸ Nat.mod_lt _ hG)
  rw [u.bankAddress, (u.group_offset_of_decode h hl hcfg).1, htmp, h.rawBankGroup, h.tmp,
    Nat.div_add_mod']

theorem UndoesStages.xbar_of_decode (u : UndoesStages P pol ks c l k v)
    (h : FollowsStages P pol ks c a k d) (hbank : v.trace.bankAddress = d.trace.bankAddress) :
    v.trace.xbarRawAddress = eccMapInv P c (eccMap P c d.loc.xbarRawAddress) := by
  rw [u.xbar, u.eccAddress, hbank, h.bankAddress, bankRotateInv_bankRotate, h.eccAddress]

/-- R313 points 4 and 5: from the same crossbar address, the inverse stages give the swizzled
address but for the bytes of its granule. -/
theorem UndoesStages.kindSwizzledAddress_of_decode (u : UndoesStages P pol ks c l k v)
    (h : FollowsStages P pol ks c a k d) (hl : ReadWordsHold l d.loc)
    (hcfg : configOk P c = true) (hfold : ∀ t, pol.l2Fold t < 2 ^ cfgS c)
    (hxbar : v.trace.xbarRawAddress = d.loc.xbarRawAddress) :
    v.trace.kindSwizzledAddress =
      d.trace.kindSwizzledAddress - d.trace.kindSwizzledAddress % cfgGRAN c := by
  have hset := l2Hash_snd_lt hfold d.trace.quotient
  have hquotient : v.trace.quotient = d.trace.quotient := by
    rw [u.quotient, hxbar, h.loc_xbar, h.l2Set, xbarCompose_div _ hset, xbarCompose_mod _ hset,
      h.l2Tag, l2Unhash_l2Hash hfold]
  have hremainder : v.trace.remainder = d.trace.remainder := by
    rw [u.remainder, hl.partitionId, h.partitionId, hquotient]
    exact remainderOf_partitionOf (h.remainder ▸ Nat.mod_lt _ (cfgPC_pos hcfg)) _
  have hjoin : d.trace.kindSwizzledAddress =
      partitionJoin c d.trace.quotient d.trace.remainder d.trace.offset := by
    rw [h.quotient, h.remainder, h.offset]
    exact (partitionJoin_partitionSplit _).symm
  rw [u.kindSwizzledAddress, hquotient, hremainder, (u.group_offset_of_decode h hl hcfg).2, hjoin,
    partitionJoin_mod hcfg, partitionJoin, partitionJoin, Nat.add_sub_assoc (Nat.mod_le _ _)]

/-- R313 point 6: the stage 1 inverses give back the offset but for the bytes of its granule. -/
theorem UndoesStages.byteOffset_of_decode (u : UndoesStages P pol ks c l k v)
    (h : FollowsStages P pol ks c a k d) (hcfg : configOk P c = true) (hks : KsLaws c ks)
    (htile : TileLaws P) (hksa : v.trace.kindSwizzledAddress =
      d.trace.kindSwizzledAddress - d.trace.kindSwizzledAddress % cfgGRAN c) :
    v.byteOffset = a &&& ~~~pageMaskWord c := by
  have hword : BitVec.ofNat 64 v.trace.kindSwizzledAddress =
      ks.hash (tileLookup P (a &&& ~~~pageMaskWord c) k) := by
    rw [tileLookup_and_not_pageMaskWord hcfg, hks.hash_clear, hksa, h.kindSwizzledAddress, kindHash,
      ← toNat_and_not_pageMaskWord hcfg, BitVec.ofNat_toNat, BitVec.setWidth_eq]
  rw [u.byteOffset, hword, kindHashInv, hks.hashInv_hash, tileLookupInv_tileLookup htile]

/-- R313 point 7: the overflow checks pass, because no value is above its DECODE counterpart. -/
theorem FollowsStages.encoded_fits (h : FollowsStages P pol ks c a k d)
    (hbank : v.trace.bankAddress = d.trace.bankAddress)
    (hbankLt : d.trace.bankAddress < 2 ^ 64) (hxbar : v.trace.xbarRawAddress = d.loc.xbarRawAddress)
    (hxbarLt : d.loc.xbarRawAddress < 2 ^ 64) (hksa : v.trace.kindSwizzledAddress =
      d.trace.kindSwizzledAddress - d.trace.kindSwizzledAddress % cfgGRAN c) : v.Fits where
  bankAddress := hbank ▸ hbankLt
  xbar := hxbar ▸ hxbarLt
  kindSwizzledAddress := hksa ▸ (Nat.sub_le _ _).trans_lt h.kindSwizzledAddress_lt

end EncodeAfterDecode

/-! ## DECODE after ENCODE -/

section DecodeAfterEncode

variable {P : Params} {pol : Policy} {ks : KsEntry} {c : Configuration} {k : SurfaceKind}
  {d : Decoded} {l : PhysicalLocation} {v : Encoded}

/-- The stages 1 and 2 give back what their inverses joined. -/
theorem FollowsStages.split_of_encode (h : FollowsStages P pol ks c v.byteOffset k d)
    (u : UndoesStages P pol ks c l k v) (hcfg : configOk P c = true) (htile : TileLaws P)
    (hks : KsLaws c ks) (hfits : v.Fits) (hpart : l.partitionId.toNat < cfgPC c) :
    d.trace.offset = v.trace.offset ∧ d.trace.quotient = v.trace.quotient ∧
      d.trace.remainder = v.trace.remainder := by
  have hksa : d.trace.kindSwizzledAddress = v.trace.kindSwizzledAddress := by
    rw [h.kindSwizzledAddress, u.byteOffset, tileLookup_tileLookupInv htile, kindHash, kindHashInv,
      hks.hash_hashInv, BitVec.toNat_ofNat, Nat.mod_eq_of_lt hfits.kindSwizzledAddress]
  have hrem : v.trace.remainder < cfgPC c := u.remainder ▸ remainderOf_lt hpart _
  have hsplit := partitionSplit_partitionJoin hrem (u.offset_lt hcfg) v.trace.quotient
  rw [← u.kindSwizzledAddress, ← hksa, partitionSplit_eq, ← h.offset, ← h.quotient,
    ← h.remainder] at hsplit
  simpa only [Prod.mk.injEq] using hsplit

/-- The tag and the set that ENCODE took apart are hashed back and joined again. -/
theorem FollowsStages.xbar_of_encode (h : FollowsStages P pol ks c a k d)
    (u : UndoesStages P pol ks c l k v) (hfold : ∀ t, pol.l2Fold t < 2 ^ cfgS c)
    (hquotient : d.trace.quotient = v.trace.quotient) :
    d.loc.xbarRawAddress = v.trace.xbarRawAddress := by
  have hset : v.trace.xbarRawAddress % 2 ^ cfgS c < 2 ^ cfgS c := Nat.mod_lt _ (Nat.two_pow_pos _)
  rw [h.loc_xbar, h.l2Tag, h.l2Set, hquotient, u.quotient, l2Hash_l2Unhash hfold hset,
    xbarCompose_div_mod]

theorem FollowsStages.bankAddress_of_encode (h : FollowsStages P pol ks c a k d)
    (u : UndoesStages P pol ks c l k v) (hecc : EccLaws P)
    (hxbar : d.loc.xbarRawAddress = v.trace.xbarRawAddress) :
    d.trace.bankAddress = v.trace.bankAddress := by
  rw [h.bankAddress, h.eccAddress, hxbar, u.xbar, eccMap_eccMapInv hecc, u.eccAddress,
    bankRotate_bankRotateInv]

/-- Stages 2 and 5 give back the five coordinates of a location in range. -/
theorem FollowsStages.readWordsHold_of_encode (h : FollowsStages P pol ks c a k d)
    (u : UndoesStages P pol ks c l k v) (hcfg : configOk P c = true) (hlaws : PolicyLaws P c pol)
    (hperm : BankPermLaws P c) (hin : inRange c l = true)
    (hsplit : d.trace.offset = v.trace.offset ∧ d.trace.quotient = v.trace.quotient ∧
      d.trace.remainder = v.trace.remainder)
    (hbank : d.trace.bankAddress = v.trace.bankAddress) : ReadWordsHold l d.loc := by
  obtain ⟨hoffset, hquotient, hremainder⟩ := hsplit
  obtain ⟨hpart, hbankId, hrankId, hcolumn⟩ := (inRange_iff c l).1 hin
  have hswap := bankSwap_lt hcfg (u.bankHash ▸ bankHashOf_lt hcfg hlaws _) hbankId hrankId
  have htmpLt : v.trace.tmp < cfgG c := u.tmp ▸ hperm.inv_lt _ _ hswap.1 hswap.2
  have hgroup : d.trace.rawBankGroup = v.trace.rawBankGroup := by
    rw [h.rawBankGroup, hbank, u.bankAddress, mul_add_div_of_lt htmpLt]
  have htmp : d.trace.tmp = v.trace.tmp := by
    rw [h.tmp, hbank, u.bankAddress, Nat.mul_add_mod_of_lt htmpLt]
  have hrowCol : rowCol c d.trace.rawBankGroup d.trace.offset =
      (l.rowId.toNat, l.columnId.toNat) := by
    rw [hgroup, hoffset, u.group_eq, u.offset_eq, rowCol_rowColInv hcfg hcolumn]
  have hrow : d.loc.rowId = l.rowId.toNat := h.rowId.trans (congrArg Prod.fst hrowCol)
  have hsw : d.trace.bankHash = v.trace.bankHash := by rw [h.bankHash, hrow, u.bankHash]
  have hbankRank : (d.loc.bankId, d.loc.rankId) = (l.bankId.toNat, l.rankId.toNat) := by
    rw [h.bank_rank, htmp, u.tmp, hperm.perm_inv _ _ hswap.1 hswap.2, hsw]
    exact bankSwap_of_bankSwap rfl
  obtain ⟨hbankEq, hrankEq⟩ := Prod.mk.inj hbankRank
  exact {
    partitionId := by
      rw [h.partitionId, hremainder, hquotient, u.remainder, partitionOf_remainderOf hpart]
    rankId := hrankEq.symm
    bankId := hbankEq.symm
    rowId := hrow.symm
    columnId := (h.columnId.trans (congrArg Prod.snd hrowCol)).symm }

/-- Whatever location in range ENCODE answers OK, the DECODE of its offset has the five coordinates
that ENCODE read, and the addresses that it computed. -/
theorem FollowsStages.of_encode (h : FollowsStages P pol ks c v.byteOffset k d)
    (u : UndoesStages P pol ks c l k v) (hcfg : configOk P c = true) (hlaws : PolicyLaws P c pol)
    (hks : KsLaws c ks) (htile : TileLaws P) (hperm : BankPermLaws P c) (hecc : EccLaws P)
    (hin : inRange c l = true) (hfits : v.Fits) :
    ReadWordsHold l d.loc ∧ d.trace.offset = v.trace.offset ∧
      d.trace.bankAddress = v.trace.bankAddress ∧
      d.loc.xbarRawAddress = v.trace.xbarRawAddress := by
  obtain ⟨hpart, -⟩ := (inRange_iff c l).1 hin
  have hsplit := h.split_of_encode u hcfg htile hks hfits hpart
  have hxbar := h.xbar_of_encode u hlaws.l2Fold_lt hsplit.2.1
  have hbank := h.bankAddress_of_encode u hecc hxbar
  exact ⟨h.readWordsHold_of_encode u hcfg hlaws hperm hin hsplit hbank, hsplit.1, hbank, hxbar⟩

end DecodeAfterEncode

/-! ## A DECODE that is answered OK under the laws (R313) -/

/-- What a DECODE computes under the laws, and the location it reports. -/
structure LawfulDecode (P : Params) (pol : Policy) (ks : KsEntry) (c : Configuration) (a : Word)
    (k : SurfaceKind) (d : Decoded) (loc : PhysicalLocation) : Prop where
  stages : FollowsStages P pol ks c a k d
  range : InDecodeRange P c d.loc
  xbar_lt : d.loc.xbarRawAddress < 2 ^ 64
  bankAddress_lt : d.trace.bankAddress < 2 ^ 64
  words : loc = coordinatesLocation (cfgS c) d.loc

theorem lawfulDecode_of_answersOk {P : Params} {c : Configuration} {a : Word} {k : SurfaceKind}
    {p : PageSizeClass} {trace : Bool} {loc : PhysicalLocation} (hlaws : LawsAt P c)
    (hecc : EccLaws P) (hcfg : configOk P c = true)
    (hok : answersOk (decodeReply P ⟨true, c⟩ trace a (some k) (some p)) (locationWords loc)) :
    ∃ ks pol, lookupKs P c p k = some ks ∧ resolvePolicy P c = some pol ∧
      LawfulDecode P pol ks c a k (decodePipeline P pol ks c a k) loc := by
  obtain ⟨k', p', ks, pol, -, hk, hp, hks, hpol, hloc⟩ := answersOk_decodeReply_iff.1 hok
  cases hk
  cases hp
  have h := decodePipeline_followsStages P pol ks c a k
  have hpolicy := hlaws.policy pol hpol
  have hxbar := h.xbar_lt hcfg hpolicy.l2Fold_lt
  have hbank := h.bankAddress_lt ((h.eccAddress_le hecc.compact_le).trans_lt hxbar)
  exact ⟨ks, pol, hks, hpol, h, h.inDecodeRange hcfg hpolicy hlaws.bankPerm, hxbar, hbank, hloc⟩

section RoundTrip

variable {P : Params} {pol : Policy} {ks : KsEntry} {c : Configuration} {a : Word}
  {k : SurfaceKind} {p : PageSizeClass} {d : Decoded} {loc : PhysicalLocation}

theorem LawfulDecode.readWordsHold (h : LawfulDecode P pol ks c a k d loc)
    (hcfg : configOk P c = true) : ReadWordsHold loc d.loc :=
  h.words ▸ h.stages.readWordsHold hcfg h.range h.bankAddress_lt

theorem LawfulDecode.xbar_toNat (h : LawfulDecode P pol ks c a k d loc) :
    loc.xbarRawAddress.toNat = d.loc.xbarRawAddress := by
  rw [h.words, coordinatesLocation_xbar h.stages.loc_xbar h.xbar_lt, zext64_toNat h.xbar_lt]

/-- R313: where the crossbar address is not aliased, every address comes back, so ENCODE gives the
offset but for the bytes of its granule. -/
theorem LawfulDecode.encode_of_not_alias (h : LawfulDecode P pol ks c a k d loc)
    (hcfg : configOk P c = true) (hlaws : LawsAt P c) (hecc : EccDefault P)
    (hks : lookupKs P c p k = some ks) (hpol : resolvePolicy P c = some pol) (trace : Bool)
    (halias : ¬ (c.eccEnabled = true ∧ loc.xbarRawAddress.toNat % 16 = 15)) :
    answersOk (encodeReply P ⟨true, c⟩ trace loc (some k) (some p) c.eccEnabled)
      [a &&& ~~~pageMaskWord c, modeWord (some k) (some p)] := by
  have hread := h.readWordsHold hcfg
  have u := encodeValues_undoesStages P pol ks c loc k
  have hbank := u.bankAddress_of_decode h.stages hread hcfg hlaws.bankPerm
  have hxbar : (encodeValues P pol ks c loc k).trace.xbarRawAddress = d.loc.xbarRawAddress :=
    (u.xbar_of_decode h.stages hbank).trans
      (eccMapInv_eccMap_of_not_alias hecc (h.xbar_toNat ▸ halias))
  have hksa := u.kindSwizzledAddress_of_decode h.stages hread hcfg (hlaws.policy pol hpol).l2Fold_lt
    hxbar
  have hfits := h.stages.encoded_fits hbank h.bankAddress_lt hxbar h.xbar_lt hksa
  have ha := u.byteOffset_of_decode h.stages hcfg (hlaws.kind p k ks hks) hlaws.tile hksa
  exact answersOk_encodeReply_iff.2 ⟨rfl, ks, pol, hks, hpol, hread.inRange h.range, hfits, ha⟩

/-- R313, R263: an aliased crossbar address overflows, or gives an offset in the same bank address,
whose DECODE differs in the crossbar side only. -/
theorem LawfulDecode.encode_of_alias (h : LawfulDecode P pol ks c a k d loc)
    (hcfg : configOk P c = true) (hlaws : LawsAt P c) (hecc : EccDefault P)
    (hks : lookupKs P c p k = some ks) (hpol : resolvePolicy P c = some pol) (tr tr' : Bool)
    (hon : c.eccEnabled = true) (halias : loc.xbarRawAddress.toNat % 16 = 15) :
    (encodeReply P ⟨true, c⟩ tr' loc (some k) (some p) c.eccEnabled).status = .invalidLocation ∨
      ∃ (a' : Word) (loc' : PhysicalLocation),
        answersOk (encodeReply P ⟨true, c⟩ tr' loc (some k) (some p) c.eccEnabled)
          [a', modeWord (some k) (some p)] ∧
        answersOk (decodeReply P ⟨true, c⟩ tr a' (some k) (some p)) (locationWords loc') ∧
        SameReadWords loc' loc ∧ loc'.subPartitionId = loc.subPartitionId ∧
        loc'.xbarRawAddress.toNat = loc.xbarRawAddress.toNat + 1 := by
  have hread := h.readWordsHold hcfg
  have hin := hread.inRange h.range
  have hpolicy := hlaws.policy pol hpol
  have u := encodeValues_undoesStages P pol ks c loc k
  by_cases hfits : (encodeValues P pol ks c loc k).Fits
  case neg =>
    left
    rw [encodeReply_of_not_fits tr' hks hpol fun hok => hfits hok.2, raise_status]
  generalize hv : encodeValues P pol ks c loc k = v at u hfits
  have hbank := u.bankAddress_of_decode h.stages hread hcfg hlaws.bankPerm
  have hnext : v.trace.xbarRawAddress = loc.xbarRawAddress.toNat + 1 := by
    rw [h.xbar_toNat] at halias ⊢
    rw [u.xbar_of_decode h.stages hbank, eccMapInv_eccMap_of_alias hecc hon halias]
  have h' := decodePipeline_followsStages P pol ks c v.byteOffset k
  generalize hd' : decodePipeline P pol ks c v.byteOffset k = d' at h'
  obtain ⟨hread', hoffset', hbank', hxbar'⟩ := h'.of_encode u hcfg hpolicy
    (hlaws.kind p k ks hks) hlaws.tile hlaws.bankPerm hecc.laws hin hfits
  have hsub : d'.loc.subPartitionId = d.loc.subPartitionId := by
    rw [h'.subPartitionId, h.stages.subPartitionId, hbank', hbank, hoffset',
      (u.group_offset_of_decode h.stages hread hcfg).2]
    exact hpolicy.subPartOf_granule _ _ _ Nat.div_eq_sub_mod_div.symm
  have hxbarLt := hxbar' ▸ hfits.xbar
  refine .inr ⟨v.byteOffset, coordinatesLocation (cfgS c) d'.loc,
    answersOk_encodeReply_iff.2 ⟨rfl, ks, pol, hks, hpol, hin, hv ▸ hfits, hv ▸ rfl⟩,
    answersOk_decodeReply_iff.2 ⟨k, p, ks, pol, rfl, rfl, rfl, hks, hpol, hd' ▸ rfl⟩,
    hread'.sameReadWords _, ?_, ?_⟩
  · rw [h.words]
    exact congrArg zext64 hsub
  · rw [coordinatesLocation_xbar h'.loc_xbar hxbarLt, zext64_toNat hxbarLt, hxbar', hnext]

end RoundTrip

/-! ## The obligations -/

/-- Settles O32: every address comes back, but that an aliased crossbar address comes back as the
next one. -/
theorem encodeUndoesDecode : Obligations.EncodeUndoesDecode := by
  intro P c a k p tr tr' loc hlaws hecc hcfg _ hok r
  obtain ⟨ks, pol, hks, hpol, h⟩ := lawfulDecode_of_answersOk hlaws hecc.laws hcfg hok
  split_ifs with halias
  · obtain ⟨hon, hx⟩ := halias
    refine (h.encode_of_alias hcfg hlaws hecc hks hpol tr tr' hon hx).imp_right ?_
    rintro ⟨a', loc', henc, hdec, hsame, hsub, hxbar⟩
    exact ⟨a', loc', henc, hdec, hsame.partitionId, hsub, hsame.rankId, hsame.bankId, hsame.rowId,
      hsame.columnId, hxbar⟩
  · exact h.encode_of_not_alias hcfg hlaws hecc hks hpol tr' halias

/-- Settles O33: ENCODE gives the offset of the location's own granule (O32), and the offsets of one
granule have one location (O18). -/
theorem decodeUndoesEncode : Obligations.DecodeUndoesEncode := by
  rintro P c k p tr tr' loc hlaws hecc hcfg - ⟨a, t, hok⟩ halias
  obtain ⟨ks, pol, hks, hpol, h⟩ := lawfulDecode_of_answersOk hlaws hecc.laws hcfg hok
  have hpolicy := hlaws.policy pol hpol
  have hnot : ¬ (c.eccEnabled = true ∧ loc.xbarRawAddress.toNat % 16 = 15) := by
    rintro ⟨hon, hx⟩
    exact halias.elim (fun hoff => by simp [hon] at hoff) fun hne => hne hx
  have hloc := (decodeReadsGranulesOnly P c pol ks a (a &&& ~~~pageMaskWord c) k hcfg
    (hlaws.kind p k ks hks) hpolicy.sliceOf_granule hpolicy.subPartOf_granule
    (and_not_pageMaskWord_idem a).symm).1
  exact ⟨a &&& ~~~pageMaskWord c, h.encode_of_not_alias hcfg hlaws hecc hks hpol tr' hnot,
    answersOk_decodeReply_iff.2 ⟨k, p, ks, pol, rfl, rfl, rfl, hks, hpol, hloc ▸ h.words⟩⟩

/-- Settles O31: the inverse stages start from an aligned offset and keep it aligned. -/
theorem encodeResultIsGranuleAligned : Obligations.EncodeResultIsGranuleAligned := by
  intro P c trace l k p eccOn a hcfg htile hks hok
  obtain ⟨-, ks, pol, hentry, -, -, hfits, rfl⟩ := answersOk_encodeReply_iff.1 hok
  exact (encodeValues_undoesStages P pol ks c l k).byteOffset_and_pageMaskWord hcfg htile
    (hks ks hentry) hfits

/-- Settles O30: the answer is a function of the five words that ENCODE reads. -/
theorem encodeIgnoresSevenWords : Obligations.EncodeIgnoresSevenWords :=
  fun P e trace _ kind page eccOn _ _ _ _ _ _ _ =>
    encodeReply_congr ⟨rfl, rfl, rfl, rfl, rfl⟩ P e trace kind page eccOn

end Sys2Proof.Machine

/-! PROOFS. The end of a run: no step stops, each step does one unit of the work that is pending, and
a block with none left keeps its state (spec/60_exceptions.md R330, R339, R347, R379, R381). -/

namespace Sys2Proof.Machine

/-! ## The work that is pending -/

theorem quiescent_iff (s : State) : quiescent s = true ↔ s.inputs = [] ∧ s.outstanding = [] := by
  simp only [quiescent, Bool.and_eq_true, List.isEmpty_iff]

theorem quiescent_iff_pendingWork (s : State) : quiescent s = true ↔ pendingWork s = 0 := by
  rw [quiescent_iff, pendingWork, ← List.length_eq_zero_iff, ← List.length_eq_zero_iff]
  omega

/-- A delivery does the one unit that its entry was counted for (R376). -/
theorem pendingWork_of_delivery {s t : State} {k : Nat} (hk : k < s.outstanding.length)
    (hin : t.inputs = s.inputs) (hout : t.outstanding = s.outstanding.eraseIdx k) :
    pendingWork t + 1 = pendingWork s := by
  have hlen := List.length_eraseIdx_add_one hk
  simp only [pendingWork, hin, hout]
  omega

/-- An acceptance turns an input, counted twice, into an entry, counted once (R374). -/
theorem pendingWork_of_acceptance {s t : State} {i : Input} {e : Entry}
    (hin : s.inputs = i :: t.inputs) (hout : t.outstanding = s.outstanding ++ [e]) :
    pendingWork t + 1 = pendingWork s := by
  simp only [pendingWork, hin, hout, List.length_cons, List.length_append, List.length_nil]
  omega

/-- A reset takes an input and leaves nothing outstanding (R370, R371). -/
theorem pendingWork_platformReset_lt {s : State} {rest : List Input}
    (hin : s.inputs = .reset :: rest) : pendingWork (platformReset s rest) < pendingWork s := by
  simp only [pendingWork, hin, platformReset_inputs, platformReset_outstanding, List.length_cons,
    List.length_nil]
  omega

/-! ## What a step does to it -/

/-- An idle block keeps its state (R347). -/
theorem step_of_quiescent {s : State} (h : quiescent s = true) : step s = .next s := by
  obtain ⟨hin, hout⟩ := (quiescent_iff s).1 h
  simp only [step, nextEvent, nextEventOf, hin, hout]

/-- Every step goes on, and does at least one unit of the pending work where any is left. -/
theorem step_pendingWork_le (s : State) :
    ∃ t, step s = .next t ∧ pendingWork t ≤ pendingWork s - 1 := by
  rcases step_cases s with ⟨hout, hin, hidle⟩ | ⟨k, e, -, hk, hdeliver⟩ | ⟨rest, hin, hreset⟩ |
    ⟨r, rest, why, -, hin, -, -, hillegal⟩ | ⟨r, rest, i, -, hin, -, -, hexec⟩
  · have hnone := (quiescent_iff_pendingWork s).1 ((quiescent_iff s).2 ⟨hin, hout⟩)
    exact ⟨s, hidle, by omega⟩
  · obtain ⟨hlt, -⟩ := List.getElem?_eq_some_iff.1 hk
    refine ⟨_, hdeliver, Nat.le_sub_of_add_le (Eq.le ?_)⟩
    exact pendingWork_of_delivery hlt rfl rfl
  · exact ⟨_, hreset, Nat.le_sub_one_of_lt (pendingWork_platformReset_lt hin)⟩
  · exact ⟨_, hillegal, Nat.le_sub_of_add_le (pendingWork_of_acceptance hin rfl).le⟩
  · obtain ⟨eng, e, hnext, -⟩ := exec_next i (fetched s rest)
    exact ⟨_, hexec.trans hnext, Nat.le_sub_of_add_le (pendingWork_of_acceptance hin rfl).le⟩

/-- A run as long as the pending work ends quiescent, by induction on its length: a reset may do
many units in one step, so the length is only a bound. -/
theorem run_settles (n : Nat) (s : State) (h : pendingWork s ≤ n) :
    ∃ t, Sys2Proof.core.run n s = .next t ∧ quiescent t = true := by
  induction n generalizing s with
  | zero => exact ⟨s, rfl, (quiescent_iff_pendingWork s).2 (Nat.le_zero.1 h)⟩
  | succ n ih =>
    obtain ⟨t, hstep, hless⟩ := step_pendingWork_le s
    obtain ⟨u, hrun, hq⟩ := ih t (by omega)
    exact ⟨u, (core_run_succ n s t hstep).trans hrun, hq⟩

/-! ## The obligations on the end of a run -/

/-- Settles O46: the run is as long as the pending work, and an idle block keeps its state. -/
theorem everyRunSettles : Obligations.EveryRunSettles := by
  intro s
  obtain ⟨t, hrun, hq⟩ := run_settles (pendingWork s) s le_rfl
  exact ⟨t, hrun, hq, step_of_quiescent hq⟩

/-- Settles O36: the state that every step goes on to. -/
theorem everyStepGoesOn : Obligations.EveryStepGoesOn := fun s =>
  let ⟨t, hstep, _⟩ := step_pendingWork_le s
  ⟨t, hstep⟩

end Sys2Proof.Machine

/-! PROOFS. Reset, acceptance and back-pressure: a full block can only deliver, a reset empties the
block, and an operation is bound and answered as it is taken (spec/70_reset_and_hazards.md R370, R371,
R374, R379). -/

namespace Sys2Proof.Machine

/-! ## What a full block may do (R379) -/

/-- No request may be taken while `MAX_OUTSTANDING` entries wait. -/
theorem canTake_request_of_full {P : Params} {es : List Entry}
    (hfull : P.maxOutstanding ≤ es.length) (r : Request) : canTake P es (.request r) = false :=
  decide_eq_false (Nat.not_lt.2 hfull)

/-- With a request oldest in the channel of a full block, a delivery is the one choice left: the block
is not idle, and its oldest input may not be taken. -/
theorem nextEventOf_of_full {P : Params} {s : State} {r : Request} {rest : List Input}
    (hi : s.inputs = .request r :: rest) (hfull : P.maxOutstanding ≤ s.outstanding.length)
    (sched : Nat → Nat) : ∃ k, k < s.outstanding.length ∧ nextEventOf P sched s = .answer k := by
  rcases nextEventOf_cases P sched s with ⟨-, -, hempty⟩ | ⟨k, hev, hk⟩ | ⟨i, rest', -, hin, htake⟩
  · cases hi.symm.trans hempty
  · exact ⟨k, hk, hev⟩
  · cases hi.symm.trans hin
    cases (canTake_request_of_full hfull r).symm.trans htake

/-! ## What a reset and an acceptance do -/

theorem step_of_reset {s : State} {rest : List Input} (h : nextEvent s = .reset rest) :
    step s = .next (platformReset s rest) := by
  simp only [step, h]

/-- An operation adds one entry: DECODE and ENCODE bind the engine they find and are answered for it,
and CONFIGURE binds none, since its answer reads no engine (R374). -/
theorem exec_binds_engine (i : Instr) (s : State) : ∃ t,
    exec i s = .next t ∧
      t.outstanding = s.outstanding ++
        [⟨.operation i, if bindsEngine (.operation i) then some s.eng else none,
          responseTo (.operation i) (replyFor Config.params (.operation i) (some s.eng))⟩] := by
  cases i with
  | configure tag trace c => exact ⟨_, exec_configure tag trace c s, rfl⟩
  | decode tag trace a kind page => exact ⟨_, exec_decode tag trace a kind page s, rfl⟩
  | encode tag trace l kind page eccOn => exact ⟨_, exec_encode tag trace l kind page eccOn s, rfl⟩

/-! ## The obligations on reset and hazards -/

/-- Settles O42: the one choice left is a delivery, and a delivery leaves the channel and the engine
as they are. -/
theorem fullBlockTakesNoRequest : Obligations.FullBlockTakesNoRequest := by
  refine ⟨fun P sched s r rest hi hfull => nextEventOf_of_full hi hfull sched,
    fun s r rest hi hfull => ?_⟩
  obtain ⟨k, hk, hev⟩ := nextEventOf_of_full hi hfull Config.schedule
  obtain ⟨e, -, hstep⟩ := deliveryAnswersOneRequest s k hev
  exact ⟨_, hstep, rfl, rfl, List.length_eraseIdx_add_one hk, List.length_append⟩

/-- Settles O35: an acceptance runs the operation, and nothing else is open where nothing waits. -/
theorem stepRunsDecodedOperation : Obligations.StepRunsDecodedOperation :=
  ⟨fun _ _ _ _ hev hd => ⟨(nextEvent_accept hev).1, step_of_accept hev hd⟩,
    fun _ _ _ ho hi => nextEvent_of_outstanding_nil ho hi⟩

/-- Settles O39. -/
theorem resetDiscardsOutstanding : Obligations.ResetDiscardsOutstanding :=
  ⟨fun _ _ hev => ⟨nextEvent_reset hev, step_of_reset hev⟩, fun _ _ => ⟨rfl, rfl, rfl, rfl⟩⟩

/-- Settles O43: the operation runs on the engine that the taking of its request leaves as it was. -/
theorem acceptanceBindsCurrentEngine : Obligations.AcceptanceBindsCurrentEngine := by
  intro s r rest i hev hd
  obtain ⟨t, hexec, hout⟩ := exec_binds_engine i (fetched s rest)
  exact ⟨t, (step_of_accept hev hd).trans hexec, hout⟩

end Sys2Proof.Machine
